-- ==== Sys2Proof/Word.lean ====
section
/-! DEFINITION. The words of the block: the 32-bit datum and the 40-bit command word. -/

namespace Sys2Proof

/-- A 32-bit word read as an IEEE 754 binary32 datum (`f32`, rule R120). Bit 31 is the sign, bits
30:23 the biased exponent, bits 22:0 the fraction. -/
abbrev F32 := BitVec 32

/-- The command word `CMD[39:0]` of rule R51: one transfer, bit 0 least significant (R34). -/
abbrev CmdWord := BitVec 40

end Sys2Proof
end

