-- ==== Sys2Proof/Syntax.lean ====
section
/-! DEFINITION. The instruction syntax: the eight commands of rule R50 and their operands. -/

namespace Sys2Proof

/-- A waveform kind (rule R10). The reserved codes 5, 6 and 7 are no kind: "No state ever holds a
reserved code". -/
inductive Kind where
  | sine
  | triangle
  | saw
  | square
  | noise
deriving DecidableEq, Repr

/-- A register that RDREG can name (rule R21). The reserved numbers 7 to 15 are no register. -/
inductive Reg where
  /-- number 0, KIND -/
  | kind
  /-- number 1, FREQ -/
  | freq
  /-- number 2, RATE -/
  | rate
  /-- number 3, DELTA -/
  | delta
  /-- number 4, PHASE -/
  | phase
  /-- number 5, BUILT -/
  | built
  /-- number 6, GEOM -/
  | geom
deriving DecidableEq, Repr

/-- The commands, one constructor per row of spec/opcode_table.json (rule R50). `osc` is the 4-bit
oscillator number `j` of rule R52; WARMUP and TABRD address the block and carry none. -/
inductive Instr where
  /-- WARMUP, format Z (rule R72) -/
  | warmup
  /-- SETWT, format K (rule R91) -/
  | setwt (osc : BitVec 4) (kind : Kind)
  /-- SETSR, format F (rule R92) -/
  | setsr (osc : BitVec 4) (fval : F32)
  /-- SETFQ, format F (rule R93) -/
  | setfq (osc : BitVec 4) (fval : F32)
  /-- NEXT, format Z (rule R105) -/
  | next (osc : BitVec 4)
  /-- TABRD, format T (rule R79) -/
  | tabrd (kind : Kind) (index : BitVec 24)
  /-- RDREG, format R (rule R95) -/
  | rdreg (osc : BitVec 4) (reg : Reg)
  /-- OSCRST, format Z (rule R94) -/
  | oscrst (osc : BitVec 4)
deriving DecidableEq, Repr

/-- Why a command word is reserved: the six conditions of rule R55, in the rule's order. -/
inductive Reserved where
  /-- 1: `op` is 0x0 or 0x9 to 0xF -/
  | opcode
  /-- 2: a must-be-zero field is not zero -/
  | zeroField
  /-- 3: `kind` is 5, 6 or 7 -/
  | kind
  /-- 4: `index >= N` -/
  | index
  /-- 5: `reg` is 7 to 15 -/
  | reg
  /-- 6: `osc >= NUM_OSC`, or `osc != 0` on WARMUP or TABRD -/
  | osc
deriving DecidableEq, Repr

end Sys2Proof
end

