-- ==== Sys2Proof/Config.lean ====
section
/-! DEFINITION. The parameters of rule R4, and the free values: the constants without a body that
stand for what the spec leaves open. -/

namespace Sys2Proof

/-- How the interpolation is rounded (rules R4, R108). -/
inductive LerpMode where
  /-- two roundings after the difference -/
  | unfused
  /-- one rounding after the difference -/
  | fused
deriving DecidableEq, Repr

/-- The parameters of rule R4; rule R17: "These are not state; they are parameters of the step
relation". The values of the block specified here are `Config.hw` (Machine/Rom.lean). -/
structure Config where
  /-- `LOG2N`, 2 to 23 -/
  log2N : Nat
  /-- `NUM_OSC`, 1 to 16 -/
  numOsc : Nat
  /-- `DEFAULT_KIND` -/
  defaultKind : Kind
  /-- `DEFAULT_FREQ`, finite and positive -/
  defaultFreq : F32
  /-- `DEFAULT_RATE`, finite and positive -/
  defaultRate : F32
  /-- `LERP_MODE` -/
  lerpMode : LerpMode
  /-- `SIN_ROM`, by index (rule R74) -/
  sinRom : Nat → F32
  /-- `SIN_EPS`, how far a word of `SIN_ROM` may lie from the real sine (rule R74, entry U8) -/
  sinEps : ℚ
  /-- `NOISE_ROM` of one reset period, by the period's number and the index (rule R78; entry U7:
  "one draw per period, unrelated to each other") -/
  noiseRom : Nat → Nat → F32

/-- The table size `N = 2^LOG2N` (rule R4). -/
def Config.size (c : Config) : Nat := 2 ^ c.log2N

/-- `HALF = N / 2` (rule R4). -/
def Config.half (c : Config) : Nat := c.size / 2

/-- `MASK = N - 1` (rule R4). -/
def Config.mask (c : Config) : Nat := c.size - 1

/-- The free value of rule R143 and entries U1 to U5: what an undefined oscillator's registers and
answers hold. It has no body; the step applies it to a counter in the state, which it advances. -/
opaque Config.freeWord : Nat → F32

/-- The raw noise draw of rule R78, by reset period and index, before the range of clause (a) is
imposed on it (`noiseClip`). It has no body (entry U7). -/
opaque Config.freeNoise : Nat → Nat → F32

/-- What a word of TAB holds before a construction has written it, by reset period and address
(rules R20, R161, entry U11: any value, and unobservable). It has no body. -/
opaque Config.unspecifiedWord : Nat → Nat → F32

/-- The floating-point operations of rules R122 and R123. -/
inductive FpOp where
  | add
  | sub
  | mul
  | div
  | fma
deriving DecidableEq, Repr

/-- Which NaN an operation returns, by operation and operands (rule R122: "Which NaN (payload, sign)
is not specified by this spec"; entry U12), before `toNaN` makes it a NaN. It has no body. -/
opaque Config.freeNaN : FpOp → F32 → F32 → F32 → F32

/-- `ffloor` of a datum that is not finite, which rule R124 does not define. It has no body. -/
opaque Config.openFloor : F32 → F32

/-- `f2i` outside its range ("Not defined outside that range", rule R124). It has no body. -/
opaque Config.openIndex : F32 → Nat

end Sys2Proof
end

