-- ==== Sys2Proof/Machine/Numerics.lean ====
section
/-! DEFINITION. The numeric primitives of 43_numerics.md: the binary32 format, one rounding
function, the operations, comparisons and predicates. Every finite datum is a whole number of
`2^-149`, so exact values are integers counted in that unit and no real number is needed. -/

namespace Sys2Proof

/-! ### The format (rule R120) -/

/-- Bit 31, the sign. -/
def signBit (x : F32) : Bool := x.getLsbD 31

/-- Bits 30:23, the biased exponent. -/
def expField (x : F32) : Nat := (x.extractLsb' 23 8).toNat

/-- Bits 22:0, the fraction. -/
def fracField (x : F32) : Nat := (x.extractLsb' 0 23).toNat

/-- `e != 255`. -/
def isFinite (x : F32) : Bool := expField x != 255

def isNaN (x : F32) : Bool := expField x == 255 && fracField x != 0

def isInf (x : F32) : Bool := expField x == 255 && fracField x == 0

/-- The magnitude of a finite datum in units of `2^-149`. The same formula gives an infinity
`2^128`, above every finite magnitude, which is what the comparisons need. -/
def mag (x : F32) : Nat :=
  if expField x = 0 then fracField x else (2 ^ 23 + fracField x) * 2 ^ (expField x - 1)

/-- `val(x)` in units of `2^-149`, a signed integer. -/
def units (x : F32) : Int := if signBit x then -(mag x : Int) else mag x

/-- One in units of `2^-149`. -/
def oneUnits : Nat := 2 ^ 149

/-- `val(x)` of a finite `x`, an exact rational (rule R120). -/
def val (x : F32) : ℚ := (units x : ℚ) / (2 ^ 149 : ℚ)

/-- The datum of a sign and a 31-bit magnitude pattern. -/
def pack (neg : Bool) (p : Nat) : F32 := BitVec.ofNat 32 (p + if neg then 2 ^ 31 else 0)

/-- The infinity of a sign. -/
def infinity (neg : Bool) : F32 := pack neg 0x7F800000

/-- The zero of a sign. -/
def zero (neg : Bool) : F32 := pack neg 0

/-- The word with its exponent field forced to 255 and a zero fraction made non-zero: every NaN, and
only a NaN, is a value of it. -/
def toNaN (w : F32) : F32 :=
  if fracField w = 0 then w ||| 0x7F800001#32 else w ||| 0x7F800000#32

/-! ### Rounding (rule R121) -/

/-- The integer nearest to `n / d`, ties to even. -/
def roundHalfEven (n d : Nat) : Nat :=
  if 2 * (n % d) < d then n / d
  else if d < 2 * (n % d) then n / d + 1
  else n / d + (n / d) % 2

/-- The exponent of the unit in the last place, in units of `2^-149`, of a magnitude whose whole part
is `q`: 0 below `2^24`, else as many places as leave 24 significant bits. -/
def ulpShift (q : Nat) : Nat := Nat.log2 q - 23

/-- The magnitude pattern (bits 30:0) of `RN` of the positive real `n / d` units of `2^-149`: the
patterns count the magnitudes in order, so a carry out of the fraction moves on to the next exponent,
and everything from `2^128 - 2^103` up lands on the infinity. -/
def roundMag (n d : Nat) : Nat :=
  min (ulpShift (n / d) * 2 ^ 23 + roundHalfEven n (d * 2 ^ ulpShift (n / d))) 0x7F800000

/-- `RN` of the non-zero real `r / d` units of `2^-149`. Where it rounds to a zero, the two zeros are
equally near and R121 names neither: the zero has the sign of `r` (DEDUCED: log entry 16). -/
def roundUnits (r : Int) (d : Nat) : F32 := pack (decide (r < 0)) (roundMag r.natAbs d)

/-- `RN(num / den)` of rule R121, for a real given as a fraction; a real 0 gives `+0.0`. -/
def rn (num : Int) (den : Nat) : F32 :=
  if num = 0 then zero false else roundUnits (num * oneUnits) den

/-! ### Operations (rules R122 and R123) -/

/-- The NaN an operation returns (entry U12). -/
def opNaN (op : FpOp) (x y z : F32) : F32 := toNaN (Config.freeNaN op x y z)

/-- `x` with the sign bit inverted. -/
def fneg (x : F32) : F32 := x ^^^ 0x80000000#32

/-- The sum of two data that are not NaN; `nan` is the NaN of `inf - inf`. -/
def addWith (nan x y : F32) : F32 :=
  if isInf x then
    if isInf y && signBit x != signBit y then nan else x
  else if isInf y then y
  else if units x + units y = 0 then zero (signBit x && signBit y)
  else roundUnits (units x + units y) 1

/-- `fadd(x, y)` (rule R122). -/
def fadd (x y : F32) : F32 :=
  if isNaN x || isNaN y then opNaN .add x y 0 else addWith (opNaN .add x y 0) x y

/-- `fsub(x, y)` (rule R122): the exact difference rounded; `fsub(-0.0, +0.0) = -0.0`. -/
def fsub (x y : F32) : F32 :=
  if isNaN x || isNaN y then opNaN .sub x y 0 else addWith (opNaN .sub x y 0) x (fneg y)

/-- `fmul(x, y)` (rule R122). -/
def fmul (x y : F32) : F32 :=
  if isNaN x || isNaN y then opNaN .mul x y 0
  else if isInf x || isInf y then
    if mag x = 0 || mag y = 0 then opNaN .mul x y 0 else infinity (signBit x != signBit y)
  else pack (signBit x != signBit y) (roundMag (mag x * mag y) oneUnits)

/-- `fdiv(x, y)` (rule R122). -/
def fdiv (x y : F32) : F32 :=
  if isNaN x || isNaN y then opNaN .div x y 0
  else if isInf x then
    if isInf y then opNaN .div x y 0 else infinity (signBit x != signBit y)
  else if isInf y then zero (signBit x != signBit y)
  else if mag y = 0 then
    if mag x = 0 then opNaN .div x y 0 else infinity (signBit x != signBit y)
  else pack (signBit x != signBit y) (roundMag (mag x * oneUnits) (mag y))

/-- `ffma(x, y, z) = RN(val(x) * val(y) + val(z))`, one rounding (rule R123). A result that underflows
to a zero has the sign of the exact value, which R123 does not state (DEDUCED: log entry 16). -/
def ffma (x y z : F32) : F32 :=
  if isNaN x || isNaN y || isNaN z then opNaN .fma x y z
  else if isInf x || isInf y then
    if mag x = 0 || mag y = 0 then opNaN .fma x y z
    else if isInf z && signBit z != (signBit x != signBit y) then opNaN .fma x y z
    else infinity (signBit x != signBit y)
  else if isInf z then z
  else if units x * units y + units z * oneUnits = 0 then
    zero ((mag x == 0 || mag y == 0) && (signBit x != signBit y) && signBit z)
  else roundUnits (units x * units y + units z * oneUnits) oneUnits

/-! ### Conversions (rule R124) -/

/-- `i2f(n)`: the datum of the integer `n`, exact up to `2^24` (rule R124). R124 does not say which zero
`i2f(0)` is: `+0.0` is the model's choice (DESIGN CHOICE: log entry 17). -/
def i2f (n : Nat) : F32 := pack false (roundMag (n * oneUnits) 1)

/-- `ffloor(x)`: the largest integral datum not above a finite `x`; a zero keeps its sign (rule R124). For
`0 < val(x) < 1` the floor is 0 and R124 does not say which zero: `+0.0`, the sign of `x`, is the model's
choice (DESIGN CHOICE: log entry 17). -/
def ffloor (x : F32) : F32 :=
  if isFinite x then
    if units x / oneUnits = 0 then zero (signBit x)
    else roundUnits (units x / oneUnits * oneUnits) 1
  else Config.openFloor x

/-- `f2i(x)`: the integer value of an integral `x` with `0 <= val(x) <= N-1`, `N = 2^log2N`. -/
def f2i (log2N : Nat) (x : F32) : Nat :=
  if isFinite x && decide (0 ≤ units x) && decide (units x < (2 ^ log2N * oneUnits : Nat))
      && decide (units x % oneUnits = 0)
  then (units x / oneUnits).toNat
  else Config.openIndex x

/-! ### Comparisons and predicates (rules R125 and R126) -/

/-- `fge(x, y)`: false when an operand is a NaN; the infinities stand at the ends. -/
def fge (x y : F32) : Bool := !isNaN x && !isNaN y && decide (units y ≤ units x)

/-- `fgt(x, y)`. -/
def fgt (x y : F32) : Bool := !isNaN x && !isNaN y && decide (units y < units x)

/-- `flt(x, y)`. -/
def flt (x y : F32) : Bool := !isNaN x && !isNaN y && decide (units x < units y)

/-- `Pos(x)`: finite and `val(x) > 0`. -/
def isPos (x : F32) : Bool := isFinite x && decide (0 < units x)

/-- `InRange(x)`: finite and `0 <= val(x) < N`, `N = 2^log2N`; both zeros are in range. -/
def inRange (log2N : Nat) (x : F32) : Bool :=
  isFinite x && decide (0 ≤ units x) && decide (units x < (2 ^ log2N * oneUnits : Nat))

/-- `NF = i2f(N)`, the table size as a datum (00_scope.md section 7). -/
def sizeF (log2N : Nat) : F32 := i2f (2 ^ log2N)

/-! ### The oscillator's arithmetic -/

/-- `DeltaOf(f, r) = fdiv(fmul(f, NF), r)` (rule R90). -/
def deltaOf (log2N : Nat) (f r : F32) : F32 := fdiv (fmul f (sizeF log2N)) r

/-- `Split(ci)` (rule R106): the integer index and the exact fraction. -/
def splitPhase (log2N : Nat) (ci : F32) : Nat × F32 :=
  (f2i log2N (ffloor ci), fsub ci (ffloor ci))

/-- `Lerp(frac, a, b)` (rule R108), with the subtraction `b - a` of conflict C2. -/
def lerp (mode : LerpMode) (frac a b : F32) : F32 :=
  match mode with
  | .unfused => fadd (fmul frac (fsub b a)) a
  | .fused => ffma frac (fsub b a) a

/-- `Advance(ci, d)` (rule R109): one conditional subtraction of `N`, on the rounded sum. -/
def advance (log2N : Nat) (ci d : F32) : F32 :=
  if fge (fadd ci d) (sizeF log2N) then fsub (fadd ci d) (sizeF log2N) else fadd ci d

end Sys2Proof
end

