-- ==== Sys2Proof/Machine/Rom.lean ====
section
/-! DEFINITION. The contents of the five tables (rules R73 to R78), the kind codes, and the
parameter values of this hardware. -/

namespace Sys2Proof

/-- The code of a kind (rule R10). -/
def kindCode : Kind → Nat
  | .sine => 0
  | .triangle => 1
  | .saw => 2
  | .square => 3
  | .noise => 4

/-- The kinds in the order of WARMUP's loop, `k in 0..4` (rule R72). -/
def allKinds : List Kind := [.sine, .triangle, .saw, .square, .noise]

/-! ### Sine (rule R74) -/

/-- `10^20 * pi`, rounded down. -/
def piNum : Nat := 314159265358979323846

def piDen : Nat := 10 ^ 20

/-- The nested form of `1 - y/(2k(2k+1)) * (1 - y/((2k+2)(2k+3)) * ...)` for `y = u2 / v2`, as a
fraction, with the given number of terms from `k` on. -/
def sinNest (u2 v2 : Nat) : (terms k : Nat) → Int × Nat
  | 0, _ => (1, 1)
  | t + 1, k =>
    let h := sinNest u2 v2 t (k + 1)
    let d := 2 * k * (2 * k + 1) * v2
    ((d * h.2 : Nat) - u2 * h.1, d * h.2)

/-- `sin(pi * a / m)` for `0 <= 2a <= m`, as a fraction: the power series to the 27th power. -/
def sinQuarter (m a : Nat) : Int × Nat :=
  let u := piNum * a
  let v := piDen * m
  let h := sinNest (u * u) (v * v) 13 1
  (u * h.1, v * h.2)

/-- `sin(pi * t / m)` for `0 <= t <= m`: the second quarter mirrors the first. -/
def sinHalf (m t : Nat) : Int × Nat := if 2 * t ≤ m then sinQuarter m t else sinQuarter m (m - t)

/-- `RN(Ideal(0, i))`, `Ideal(0, i) = sin(2 pi i / m)`, `m = N - 1` (rule R74): the table is
antisymmetric about its centre, and a real 0 is stored as `+0.0`. -/
def sinWord (m i : Nat) : F32 :=
  if 2 * i ≤ m then rn (sinHalf m (2 * i)).1 (sinHalf m (2 * i)).2
  else rn (-(sinHalf m (2 * (m - i))).1) (sinHalf m (2 * (m - i))).2

/-! ### Triangle, saw and square (rules R75 to R77) -/

/-- `RN(Ideal(1, i))`: `-1 + 4i/(N-1)` up to `HALF`, mirrored above (rule R75). -/
def triangleWord (c : Config) (i : Nat) : F32 :=
  if i ≤ c.half then rn (4 * i - (c.size - 1)) (c.size - 1)
  else rn (4 * (c.size - i) - (c.size - 1)) (c.size - 1)

/-- `RN(Ideal(2, i))`, `Ideal(2, i) = -1 + 4 (i mod HALF) / N`: two ramps (rule R76). -/
def sawWord (c : Config) (i : Nat) : F32 := rn (4 * (i % c.half : Nat) - c.size) c.size

/-- 0.0 in the first half, 1.0 in the second (rule R77). -/
def squareWord (c : Config) (i : Nat) : F32 := if i < c.half then rn 0 1 else rn 1 1

/-! ### Noise (rule R78) -/

/-- Clause (a) of rule R78: finite and `-1 <= val <= 1`. -/
def noiseOk (w : F32) : Bool := isFinite w && decide (mag w ≤ oneUnits)

/-- The free draw limited to clause (a) of rule R78: a word that meets it stands for itself, so every
table the rule allows is some draw; a word that does not is replaced by `+0.0`, one of the allowed. -/
def noiseClip (w : F32) : F32 := if noiseOk w then w else zero false

/-! ### All tables (rule R73) -/

/-- `ROM(k, i)`, the word the generator stores at `TA(k, i)` in the reset period `draw`. -/
def rom (c : Config) (draw : Nat) (k : Kind) (i : Nat) : F32 :=
  match k with
  | .sine => c.sinRom i
  | .triangle => triangleWord c i
  | .saw => sawWord c i
  | .square => squareWord c i
  | .noise => c.noiseRom draw i

/-- The column "this hardware" of rule R4. R4 gives no `SIN_EPS`; the value here is the bound entry U8
gives for the correctly rounded table and an allowance for the series (log entry 7, DESIGN CHOICE). -/
def Config.hw : Config where
  log2N := 15
  numOsc := 1
  defaultKind := .sine
  defaultFreq := 0x43DC0000#32
  defaultRate := 0x472C4400#32
  lerpMode := .unfused
  sinRom := sinWord (2 ^ 15 - 1)
  sinEps := 1 / 2 ^ 25 + 1 / 2 ^ 60
  noiseRom := fun draw i => noiseClip (Config.freeNoise draw i)

end Sys2Proof
end

