-- ==== Sys2Proof/WellFormed.lean ====
section
/-! DEFINITION. Which instructions a legal command word can carry: the range checks of rule R55 that
the syntax leaves open (conditions 4 and 6). A kind or a register outside its range is no term. -/

namespace Sys2Proof

/-- The oscillator-addressed commands need `osc < NUM_OSC` (rule R52). -/
def oscOk (c : Config) (j : BitVec 4) : Bool := decide (j.toNat < c.numOsc)

/-- TABRD needs `index < N` (rule R51, format T). -/
def indexOk (c : Config) (index : BitVec 24) : Bool := decide (index.toNat < c.size)

/-- The instruction meets its row's "further constraints" (rule R62). -/
def wellFormedWith (c : Config) : Instr → Bool
  | .warmup => true
  | .setwt j _ => oscOk c j
  | .setsr j _ => oscOk c j
  | .setfq j _ => oscOk c j
  | .next j => oscOk c j
  | .tabrd _ index => indexOk c index
  | .rdreg j _ => oscOk c j
  | .oscrst j => oscOk c j

/-- Well-formed for this hardware. -/
def wellFormed (i : Instr) : Bool := wellFormedWith Config.hw i

end Sys2Proof
end

