-- ==== Sys2Proof/Decode.lean ====
section
/-! DEFINITION. The decoder of command words (rules R51 to R56, R62), and after it the encoder. -/

namespace Sys2Proof

/-! ### Fields (rules R51 and R53) -/

/-- `CMD[39:36]` -/
def oscField (w : CmdWord) : BitVec 4 := w.extractLsb' 36 4

/-- `CMD[35:32]` -/
def opField (w : CmdWord) : BitVec 4 := w.extractLsb' 32 4

/-- `CMD[31:0]` -/
def argField (w : CmdWord) : BitVec 32 := w.extractLsb' 0 32

/-- Bits 2:0 of the operand word (formats K and T). -/
def kindField (arg : BitVec 32) : BitVec 3 := arg.extractLsb' 0 3

/-- Bits 31:8 of the operand word (format T). -/
def indexField (arg : BitVec 32) : BitVec 24 := arg.extractLsb' 8 24

/-- Bits 3:0 of the operand word (format R). -/
def regField (arg : BitVec 32) : BitVec 4 := arg.extractLsb' 0 4

/-! ### Code tables (rules R10 and R21) -/

/-- The kind of a 3-bit code (rule R10); the codes 5 to 7 are reserved. -/
def kindOfCode (k : BitVec 3) : Option Kind :=
  match k.toNat with
  | 0 => some .sine
  | 1 => some .triangle
  | 2 => some .saw
  | 3 => some .square
  | 4 => some .noise
  | _ => none

/-- The register of a 4-bit number (rule R21); the numbers 7 to 15 are reserved. -/
def regOfNumber (r : BitVec 4) : Option Reg :=
  match r.toNat with
  | 0 => some .kind
  | 1 => some .freq
  | 2 => some .rate
  | 3 => some .delta
  | 4 => some .phase
  | 5 => some .built
  | 6 => some .geom
  | _ => none

/-! ### Checks (rules R55 and R56) -/

/-- A must-be-zero check (condition 2 of rule R55). -/
def needZero {n : Nat} (field : BitVec n) (rest : Except Reserved Instr) : Except Reserved Instr :=
  if field = 0#n then rest else .error .zeroField

/-- `osc < NUM_OSC` (condition 6 of rule R55). -/
def needOsc (c : Config) (w : CmdWord) (rest : BitVec 4 → Except Reserved Instr) :
    Except Reserved Instr :=
  if oscOk c (oscField w) then rest (oscField w) else .error .osc

/-- `osc = 0`, for the commands that address the block (condition 6 of rule R55). -/
def needBlock (w : CmdWord) (rest : Except Reserved Instr) : Except Reserved Instr :=
  if oscField w = 0#4 then rest else .error .osc

/-- A legal kind code (condition 3 of rule R55). -/
def needKind (k : BitVec 3) (rest : Kind → Except Reserved Instr) : Except Reserved Instr :=
  match kindOfCode k with
  | some k => rest k
  | none => .error .kind

/-- A legal table index (condition 4 of rule R55). -/
def needIndex (c : Config) (index : BitVec 24) (rest : Except Reserved Instr) :
    Except Reserved Instr :=
  if indexOk c index then rest else .error .index

/-- A legal register number (condition 5 of rule R55). -/
def needReg (r : BitVec 4) (rest : Reg → Except Reserved Instr) : Except Reserved Instr :=
  match regOfNumber r with
  | some r => rest r
  | none => .error .reg

/-- The decoder, in the order of rule R56: `op`, the must-be-zero bits, the range of `osc`, the range
of `kind`, `index` or `reg`. -/
def decodeWith (c : Config) (w : CmdWord) : Except Reserved Instr :=
  match (opField w).toNat with
  | 1 => needZero (argField w) <| needBlock w <| .ok .warmup
  | 2 => needZero ((argField w).extractLsb' 3 29) <| needOsc c w fun j =>
      needKind (kindField (argField w)) fun k => .ok (.setwt j k)
  | 3 => needOsc c w fun j => .ok (.setsr j (argField w))
  | 4 => needOsc c w fun j => .ok (.setfq j (argField w))
  | 5 => needZero (argField w) <| needOsc c w fun j => .ok (.next j)
  | 6 => needZero ((argField w).extractLsb' 3 5) <| needBlock w <|
      needKind (kindField (argField w)) fun k =>
        needIndex c (indexField (argField w)) <| .ok (.tabrd k (indexField (argField w)))
  | 7 => needZero ((argField w).extractLsb' 4 28) <| needOsc c w fun j =>
      needReg (regField (argField w)) fun r => .ok (.rdreg j r)
  | 8 => needZero (argField w) <| needOsc c w fun j => .ok (.oscrst j)
  | _ => .error .opcode

/-- The decoder of this hardware. -/
def decode (w : CmdWord) : Except Reserved Instr := decodeWith Config.hw w

/-- The instruction the decoder reads from an instruction of `nbits` bits `w`, the bits above being
zero; a command is one 40-bit word (rule R51), so no word order arises. -/
def decodeTableWord (nbits w : Nat) : Option Instr :=
  if 40 < nbits then none else (decode (BitVec.ofNat 40 (w % 2 ^ nbits))).toOption

/-! ### The encoder (rules R51 and R62) -/

/-- The 3-bit code of a kind (rule R10). -/
def kindBits (k : Kind) : BitVec 3 := BitVec.ofNat 3 (kindCode k)

/-- The number of a register (rule R21). -/
def regNumber : Reg → BitVec 4
  | .kind => 0#4
  | .freq => 1#4
  | .rate => 2#4
  | .delta => 3#4
  | .phase => 4#4
  | .built => 5#4
  | .geom => 6#4

/-- `{osc, op, arg}`. -/
def cmdWord (osc op : BitVec 4) (arg : BitVec 32) : CmdWord := osc ++ op ++ arg

/-- The command word of an instruction. -/
def encode : Instr → CmdWord
  | .warmup => cmdWord 0#4 1#4 0#32
  | .setwt j k => cmdWord j 2#4 (0#29 ++ kindBits k)
  | .setsr j f => cmdWord j 3#4 f
  | .setfq j f => cmdWord j 4#4 f
  | .next j => cmdWord j 5#4 0#32
  | .tabrd k index => cmdWord 0#4 6#4 (index ++ 0#5 ++ kindBits k)
  | .rdreg j r => cmdWord j 7#4 (0#28 ++ regNumber r)
  | .oscrst j => cmdWord j 8#4 0#32

/-! ### The opcode map (rule R62) -/

/-- A row of the opcode map: a word `w` selects it when `w &&& mask = pattern` and the further
constraints hold. -/
structure OpcodeRow where
  mnemonic : String
  pattern : CmdWord
  mask : CmdWord
deriving DecidableEq, Repr

/-- The row of an instruction, from the table of rule R62. -/
def opcodeRow : Instr → OpcodeRow
  | .warmup => ⟨"WARMUP", 0x0100000000#40, 0xFFFFFFFFFF#40⟩
  | .setwt _ _ => ⟨"SETWT", 0x0200000000#40, 0x0FFFFFFFF8#40⟩
  | .setsr _ _ => ⟨"SETSR", 0x0300000000#40, 0x0F00000000#40⟩
  | .setfq _ _ => ⟨"SETFQ", 0x0400000000#40, 0x0F00000000#40⟩
  | .next _ => ⟨"NEXT", 0x0500000000#40, 0x0FFFFFFFFF#40⟩
  | .tabrd _ _ => ⟨"TABRD", 0x0600000000#40, 0xFF000000F8#40⟩
  | .rdreg _ _ => ⟨"RDREG", 0x0700000000#40, 0x0FFFFFFFF0#40⟩
  | .oscrst _ => ⟨"OSCRST", 0x0800000000#40, 0x0FFFFFFFFF#40⟩

end Sys2Proof
end

