-- ==== Sys2Proof/Machine/State.lean ====
section
/-! DEFINITION. The state of the block, the host's side of the two ports, the reasons a step can
stop, and the state after a hardware reset. -/

namespace Sys2Proof.Machine

/-- One oscillator: the five registers of rule R11 and the mark of rule R143. -/
structure Osc where
  /-- KIND, the handle to the selected table (R12) -/
  kind : Kind
  /-- FREQ (R13) -/
  frequency : F32
  /-- RATE (R13) -/
  sampleRate : F32
  /-- DELTA (R14) -/
  delta : F32
  /-- PHASE (R15) -/
  continuousIndex : F32
  /-- the oscillator is undefined (R143): the sticky mark of entry U1, cleared by OSCRST and by a
  hardware reset only -/
  undef : Bool
deriving DecidableEq, Repr

/-- The five built flags `built[k]` (rule R19). -/
structure Built where
  sine : Bool
  triangle : Bool
  saw : Bool
  square : Bool
  noise : Bool
deriving DecidableEq, Repr

/-- The table space TAB (rule R30): the words that a construction has written, as pairs of a word
address and the word. An address that is not listed has not been written since the reset. -/
abbrev Memory := List (Nat × F32)

/-- The canonical form: addresses strictly rising. An unlisted address reads as no word at all, so no
listed word equals what an unlisted address reads as, and equal memories are equal lists. -/
abbrev Memory.wf (m : Memory) : Prop := m.Pairwise (fun x y => x.1 < y.1)

/-- What the host does at the ports (rules R5, R61, R171): it issues a command word, or it asserts and
releases `rst`. -/
inductive HostEvent where
  | cmd (w : CmdWord)
  | rst
deriving DecidableEq, Repr

/-- The state. `oscs`, `built` and `tab` are the state of 10_state.md section 1. `noiseDraw` says which
draw NOISE_ROM is (R25, R78). `events` is the host's command sequence, oldest first: the model's
program text and no state of the block (R5, R16, R17). `responses` is the response stream of the run,
oldest first (R54, R171). `freeCount` is the model's own: how many free values have been taken. -/
structure State where
  oscs : List Osc
  built : Built
  tab : Memory
  noiseDraw : Nat
  events : List HostEvent
  responses : List F32
  freeCount : Nat
deriving DecidableEq, Repr

/-- Why the block would stop with a fault. The spec gives it none (R140). -/
inductive Fault where
  /-- A word address of `5 * N` or above, which does not exist (R30). Raised by `memRead`; safe. No
  instruction raises it, since every index is masked or range-checked (R44). -/
  | outsideTableSpace
deriving DecidableEq, Repr

/-- Why a step has no meaning. -/
inductive Refusal where
  /-- An instruction without a meaning in this model, by its mnemonic. Raised by no arm of `exec`; safe. -/
  | notModelled (mnemonic : String)
  /-- A reserved command word, which has no meaning in the spec (R55: "A model refuses it"; entry U6).
  Raised by the fetch, and by the meanings for operands that only a reserved word could carry; safe. -/
  | reservedCommand (why : Reserved)
deriving DecidableEq, Repr

/-- An oscillator after creation (rules R25 and R94). -/
def Osc.created (c : Config) : Osc where
  kind := c.defaultKind
  frequency := c.defaultFreq
  sampleRate := c.defaultRate
  delta := deltaOf c.log2N c.defaultFreq c.defaultRate
  continuousIndex := zero false
  undef := false

/-- No table is built (rule R25). -/
def Built.none : Built := ⟨false, false, false, false, false⟩

/-- The state after a hardware reset (rules R25, R161), for any parameters. -/
def State.resetWith (c : Config) : State where
  oscs := List.replicate c.numOsc (Osc.created c)
  built := Built.none
  tab := []
  noiseDraw := 0
  events := []
  responses := []
  freeCount := 0

/-- The state of this hardware right after reset. -/
def State.reset : State := State.resetWith Config.hw

end Sys2Proof.Machine
end

