-- ==== Sys2Proof/Machine/Ops.lean ====
section
/-! DEFINITION. The operations every meaning is built from: the table memory and its construction,
the oscillator registers, responses, free values, the out-of-contract condition, hardware reset.

Taking an exception: the block has none, no trap entry and no trap return (R140, R146, R147). What
stands in their place is `undefine`, the one shared entry into the condition of rule R143, and
`recreate` beside it, its one exit short of a reset. -/

namespace Sys2Proof.Machine

/-! ### Free values -/

/-- The `n`-th free value not yet taken. -/
def freeAt (s : State) (n : Nat) : F32 := Config.freeWord (s.freeCount + n)

/-- `n` free values have been taken. -/
def spendFree (n : Nat) (s : State) : State := { s with freeCount := s.freeCount + n }

/-! ### The built flags (rule R19) -/

/-- `built[k]` -/
def isBuilt (b : Built) : Kind → Bool
  | .sine => b.sine
  | .triangle => b.triangle
  | .saw => b.saw
  | .square => b.square
  | .noise => b.noise

/-- `built[k] <- 1` -/
def setBuilt (b : Built) : Kind → Built
  | .sine => { b with sine := true }
  | .triangle => { b with triangle := true }
  | .saw => { b with saw := true }
  | .square => { b with square := true }
  | .noise => { b with noise := true }

/-! ### The table memory (rules R30 to R33) -/

/-- `TA(k, i) = k * N + i` (rule R30). -/
def tableAddr (c : Config) (k : Kind) (i : Nat) : Nat := kindCode k * c.size + i

/-- The number of words of TAB: addresses from here up do not exist (rule R30). -/
def tabWords (c : Config) : Nat := 5 * c.size

/-- The word listed at an address, if a construction has written it. -/
def listedWord : Memory → Nat → Option F32
  | [], _ => none
  | (b, w) :: m, a => if a = b then some w else listedWord m a

/-- The memory with one word replaced. -/
def putWord : Memory → Nat → F32 → Memory
  | [], a, v => [(a, v)]
  | (b, w) :: m, a, v =>
    if a < b then (a, v) :: (b, w) :: m
    else if a = b then (a, v) :: m
    else (b, w) :: putWord m a v

/-- The cells `base .. base+len-1` of a table, given the fewer than `len` that are still to come:
`wordsLeft` counts down, so that the addresses rise. -/
def tableCells (base len : Nat) (f : Nat → F32) : (wordsLeft : Nat) → Memory
  | 0 => []
  | n + 1 => (base + (len - (n + 1)), f (len - (n + 1))) :: tableCells base len f n

/-- The memory with the words `base .. base+len-1` replaced by `f 0 .. f (len-1)`, in one step
(entry U15: "A model may build a table in one step"). -/
def putTable (m : Memory) (base len : Nat) (f : Nat → F32) : Memory :=
  m.filter (fun x => decide (x.1 < base)) ++ tableCells base len f len
    ++ m.filter (fun x => decide (base + len ≤ x.1))

/-- `MemRead(a, 4)` (rule R31): a word not yet written has an unspecified value (R20, R161), and an
address outside TAB does not exist. -/
def memRead (c : Config) (s : State) (a : Nat) : Except Fault F32 :=
  if a < tabWords c then .ok ((listedWord s.tab a).getD (Config.unspecifiedWord s.noiseDraw a))
  else .error .outsideTableSpace

/-- `MemWrite(a, 4, v)` (rule R31): "only the generator uses it". -/
def memWrite (a : Nat) (v : F32) (s : State) : State := { s with tab := putWord s.tab a v }

/-- `Build(k)` (rule R70): the `N` words of table `k`, then its flag. -/
def build (c : Config) (k : Kind) (s : State) : State :=
  { s with
    tab := putTable s.tab (tableAddr c k 0) c.size (rom c s.noiseDraw k)
    built := setBuilt s.built k }

/-- `GetTable(k)` (rule R71). -/
def getTable (c : Config) (k : Kind) (s : State) : State :=
  if isBuilt s.built k then s else build c k s

/-- `TabRead(k, i)` (rule R33): `GetTable(k)`, then the read. -/
def tabRead (c : Config) (k : Kind) (i : Nat) (s : State) : Except Fault (F32 × State) :=
  match memRead c (getTable c k s) (tableAddr c k i) with
  | .ok w => .ok (w, getTable c k s)
  | .error f => .error f

/-! ### Oscillators and responses -/

/-- `OSC[j]`, if the block has it. -/
def osc? (s : State) (j : BitVec 4) : Option Osc := s.oscs[j.toNat]?

/-- `OSC[j] <- o` -/
def setOsc (j : BitVec 4) (o : Osc) (s : State) : State := { s with oscs := s.oscs.set j.toNat o }

/-- `respond(w)` (rule R54): one word, after all earlier ones. -/
def respond (w : F32) (s : State) : State := { s with responses := s.responses ++ [w] }

/-! ### The out-of-contract condition (rule R143) -/

/-- `undefined(j)`: oscillator `j`, which holds `o`, becomes or stays undefined. Its four float
registers take free values; its kind, the tables, the flags and every other oscillator stay. -/
def undefine (j : BitVec 4) (o : Osc) (s : State) : State :=
  spendFree 4 <| setOsc j
    { o with
      frequency := freeAt s 0
      sampleRate := freeAt s 1
      delta := freeAt s 2
      continuousIndex := freeAt s 3
      undef := true } s

/-- The five registers of oscillator `j` take their creation values and the condition ends (R94). -/
def recreate (c : Config) (j : BitVec 4) (s : State) : State := setOsc j (Osc.created c) s

/-! ### Hardware reset (rule R161) -/

/-- `rst` asserted and released between two commands: every oscillator as created, no table built, a
new noise draw, no response pending. What the host issues next is not the block's to change. -/
def hardReset (c : Config) (s : State) : State :=
  { State.resetWith c with
    noiseDraw := s.noiseDraw + 1
    events := s.events
    freeCount := s.freeCount }

/-! ### The command port (rules R5 and R16) -/

/-- The host's event `e` is taken, `rest` are still to come. -/
def takeEvent (rest : List HostEvent) (s : State) : State := { s with events := rest }

/-- The host issues `w` before anything else it was going to do. -/
def issueFirst (w : CmdWord) (s : State) : State := { s with events := .cmd w :: s.events }

end Sys2Proof.Machine
end

