-- ==== Sys2Proof/Machine/Flags.lean ====
section
/-! DEFINITION. There are no condition codes and no status flags (R18); the one-bit state is the five
built flags. This file holds the conditions the meanings test: the contract of rule R141. -/

namespace Sys2Proof.Machine

/-- P5, and P1 or P2, of rule R141: SETSR or SETFQ of `fval` on an oscillator is in contract. -/
def setterInContract (o : Osc) (fval : F32) : Bool := !o.undef && isPos fval

/-- P3, P4 and P5 of rule R141: NEXT on an oscillator is in contract. -/
def nextInContract (c : Config) (o : Osc) : Bool :=
  !o.undef && inRange c.log2N o.continuousIndex && inRange c.log2N o.delta

end Sys2Proof.Machine
end

