-- ==== Sys2Proof/Machine/Operands.lean ====
section
/-! DEFINITION. Operand forms: the register map that RDREG reads (rules R21 to R23), the effective
indices of the two reads of NEXT (rules R45, R107), and the check that an oscillator exists. -/

namespace Sys2Proof.Machine

/-- The word of register BUILT (rule R22): `{27 zero bits, built[4], ..., built[0]}`. -/
def builtWord (b : Built) : F32 :=
  0#27 ++ BitVec.ofBool b.noise ++ BitVec.ofBool b.square ++ BitVec.ofBool b.saw
    ++ BitVec.ofBool b.triangle ++ BitVec.ofBool b.sine

/-- The constant of register GEOM (rule R23): `(NUM_OSC << 8) | LOG2N`. -/
def geomWord (c : Config) : F32 := (BitVec.ofNat 32 c.numOsc <<< 8) ||| BitVec.ofNat 32 c.log2N

/-- The value RDREG answers for a register of oscillator `o` that holds defined values (rule R21). -/
def regValue (c : Config) (s : State) (o : Osc) : Reg → F32
  | .kind => 0#29 ++ BitVec.ofNat 3 (kindCode o.kind)
  | .freq => o.frequency
  | .rate => o.sampleRate
  | .delta => o.delta
  | .phase => o.continuousIndex
  | .built => builtWord s.built
  | .geom => geomWord c

/-- The registers 1 to 4, which lose their meaning when the oscillator is undefined (rule R143). -/
def isFloatReg : Reg → Bool
  | .kind => false
  | .freq => true
  | .rate => true
  | .delta => true
  | .phase => true
  | .built => false
  | .geom => false

/-- `idx & MASK` and `(idx + 1) & MASK` (rule R107). -/
def readIndices (c : Config) (idx : Nat) : Nat × Nat := (idx &&& c.mask, (idx + 1) &&& c.mask)

/-- The meaning of a command for oscillator `j`, or, where the block has no such oscillator, the
refusal of the word (condition 6 of rule R55); the decoder never lets such a word through. -/
def onOsc (j : BitVec 4) (s : State) (run : Osc → Host.Outcome State Fault Refusal) :
    Host.Outcome State Fault Refusal :=
  match osc? s j with
  | some o => run o
  | none => .refused (.reservedCommand .osc)

end Sys2Proof.Machine
end

