-- ==== Sys2Proof/Machine/OscControl.lean ====
section
/-! DEFINITION. Oscillator control (41_oscillator_control.md): SETWT, SETSR, SETFQ, OSCRST, RDREG. -/

namespace Sys2Proof.Machine

/-- SETWT (rule R91), for any parameters. It keeps its effect on an undefined oscillator (entry U5). -/
def execSetwtWith (c : Config) (j : BitVec 4) (k : Kind) (s : State) :
    Host.Outcome State Fault Refusal :=
  onOsc j s fun o => .next (setOsc j { o with kind := k } (getTable c k s))

/-- SETWT (rule R91). -/
def execSetwt (j : BitVec 4) (k : Kind) (s : State) : Host.Outcome State Fault Refusal :=
  execSetwtWith Config.hw j k s

/-- SETSR (rule R92), for any parameters. -/
def execSetsrWith (c : Config) (j : BitVec 4) (fval : F32) (s : State) :
    Host.Outcome State Fault Refusal :=
  onOsc j s fun o =>
    if setterInContract o fval then
      .next (setOsc j { o with sampleRate := fval, delta := deltaOf c.log2N o.frequency fval } s)
    else .next (undefine j o s)

/-- SETSR (rule R92). -/
def execSetsr (j : BitVec 4) (fval : F32) (s : State) : Host.Outcome State Fault Refusal :=
  execSetsrWith Config.hw j fval s

/-- SETFQ (rule R93), for any parameters. -/
def execSetfqWith (c : Config) (j : BitVec 4) (fval : F32) (s : State) :
    Host.Outcome State Fault Refusal :=
  onOsc j s fun o =>
    if setterInContract o fval then
      .next (setOsc j { o with frequency := fval, delta := deltaOf c.log2N fval o.sampleRate } s)
    else .next (undefine j o s)

/-- SETFQ (rule R93). -/
def execSetfq (j : BitVec 4) (fval : F32) (s : State) : Host.Outcome State Fault Refusal :=
  execSetfqWith Config.hw j fval s

/-- OSCRST (rule R94), for any parameters. -/
def execOscrstWith (c : Config) (j : BitVec 4) (s : State) : Host.Outcome State Fault Refusal :=
  onOsc j s fun _ => .next (recreate c j s)

/-- OSCRST (rule R94). -/
def execOscrst (j : BitVec 4) (s : State) : Host.Outcome State Fault Refusal :=
  execOscrstWith Config.hw j s

/-- RDREG (rule R95), for any parameters. On an undefined oscillator the answer for registers 1 to 4
is a free value, and a new one each time (rule R143). -/
def execRdregWith (c : Config) (j : BitVec 4) (r : Reg) (s : State) :
    Host.Outcome State Fault Refusal :=
  onOsc j s fun o =>
    if o.undef && isFloatReg r then .next (respond (freeAt s 0) (spendFree 1 s))
    else .next (respond (regValue c s o r) s)

/-- RDREG (rule R95). -/
def execRdreg (j : BitVec 4) (r : Reg) (s : State) : Host.Outcome State Fault Refusal :=
  execRdregWith Config.hw j r s

end Sys2Proof.Machine
end

