-- ==== Sys2Proof/Machine/OscSample.lean ====
section
/-! DEFINITION. The per-sample command NEXT (42_oscillator_sample.md). -/

namespace Sys2Proof.Machine

/-- The in-contract NEXT (rule R105) on oscillator `j`, which holds `o`: split, two table reads at the
masked indices, interpolate, advance, answer. -/
def nextSample (c : Config) (j : BitVec 4) (o : Osc) (s : State) :
    Host.Outcome State Fault Refusal :=
  match tabRead c o.kind (readIndices c (splitPhase c.log2N o.continuousIndex).1).1 s with
  | .error f => .fault f
  | .ok (a, s1) =>
    match tabRead c o.kind (readIndices c (splitPhase c.log2N o.continuousIndex).1).2 s1 with
    | .error f => .fault f
    | .ok (b, s2) =>
      .next (respond (lerp c.lerpMode (splitPhase c.log2N o.continuousIndex).2 a b)
        (setOsc j { o with continuousIndex := advance c.log2N o.continuousIndex o.delta } s2))

/-- The out-of-contract NEXT (rule R143): the command completes, its reads still demand the selected
table, it gives one response of no promised value, and the oscillator is undefined. -/
def nextUndefined (c : Config) (j : BitVec 4) (o : Osc) (s : State) : State :=
  respond (freeAt s 4) (spendFree 1 (undefine j o (getTable c o.kind s)))

/-- NEXT (rule R105), for any parameters. -/
def execNextWith (c : Config) (j : BitVec 4) (s : State) : Host.Outcome State Fault Refusal :=
  onOsc j s fun o =>
    if nextInContract c o then nextSample c j o s else .next (nextUndefined c j o s)

/-- NEXT (rule R105). -/
def execNext (j : BitVec 4) (s : State) : Host.Outcome State Fault Refusal :=
  execNextWith Config.hw j s

end Sys2Proof.Machine
end

