-- ==== Sys2Proof/Machine/TableStore.lean ====
section
/-! DEFINITION. The commands of the Table Store (40_table_store.md): WARMUP and TABRD. -/

namespace Sys2Proof.Machine

/-- `for k in 0..4 do GetTable(k) end` (rule R72). -/
def warmAll (c : Config) (s : State) : State := allKinds.foldl (fun s k => getTable c k s) s

/-- WARMUP (rule R72), for any parameters. -/
def execWarmupWith (c : Config) (s : State) : Host.Outcome State Fault Refusal :=
  .next (warmAll c s)

/-- WARMUP (rule R72). -/
def execWarmup (s : State) : Host.Outcome State Fault Refusal := execWarmupWith Config.hw s

/-- TABRD (rule R79), for any parameters. An index of `N` or more is a reserved word (condition 4 of
rule R55), which the decoder never lets through: "there is no wrap in TABRD". -/
def execTabrdWith (c : Config) (k : Kind) (index : BitVec 24) (s : State) :
    Host.Outcome State Fault Refusal :=
  if indexOk c index then
    match tabRead c k index.toNat s with
    | .ok (w, t) => .next (respond w t)
    | .error f => .fault f
  else .refused (.reservedCommand .index)

/-- TABRD (rule R79). -/
def execTabrd (k : Kind) (index : BitVec 24) (s : State) : Host.Outcome State Fault Refusal :=
  execTabrdWith Config.hw k index s

end Sys2Proof.Machine
end

