-- ==== Sys2Proof/Machine/Dispatch.lean ====
section
/-! DEFINITION. The dispatch: one arm per constructor of Instr, each a direct call of its meaning. -/

namespace Sys2Proof.Machine

def exec (i : Instr) (s : State) : Host.Outcome State Fault Refusal :=
  match i with
  | .warmup => Sys2Proof.Machine.execWarmup s
  | .setwt osc kind => Sys2Proof.Machine.execSetwt osc kind s
  | .setsr osc fval => Sys2Proof.Machine.execSetsr osc fval s
  | .setfq osc fval => Sys2Proof.Machine.execSetfq osc fval s
  | .next osc => Sys2Proof.Machine.execNext osc s
  | .tabrd kind index => Sys2Proof.Machine.execTabrd kind index s
  | .rdreg osc reg => Sys2Proof.Machine.execRdreg osc reg s
  | .oscrst osc => Sys2Proof.Machine.execOscrst osc s

end Sys2Proof.Machine
end

