-- ==== Sys2Proof/Machine/Step.lean ====
section
/-! DEFINITION. One step: the block takes the next thing the host does at its ports (rule R5: "the
block executes the next command"; R161; R171). -/

namespace Sys2Proof.Machine

/-- The block takes the host's next event. A command word is decoded from the word alone, before any
state is read (R145), and executed to completion; a reserved word is refused (R55); `rst` is the
hardware reset (R161). With nothing issued the block is idle: it waits (R161, R171). -/
def step (s : State) : Host.Outcome State Fault Refusal :=
  match s.events with
  | [] => .next s
  | .rst :: rest => .next (hardReset Config.hw (takeEvent rest s))
  | .cmd w :: rest =>
    match decode w with
    | .ok i => exec i (takeEvent rest s)
    | .error why => .refused (.reservedCommand why)

/-- `s` with the host about to issue the command word `w` (its bits above `nbits` zero), so that the
very next step runs it. -/
def State.withFetchWord (s : State) (nbits w : Nat) : State :=
  issueFirst (BitVec.ofNat 40 (w % 2 ^ nbits)) s

end Sys2Proof.Machine
end

