-- ==== Sys2Proof/Machine/Core.lean ====
section
/-! DEFINITION. What the host is given: the state type, the reasons a step stops, the step, the reset state. -/

def Sys2Proof.core : Host.Core := { State := Sys2Proof.Machine.State, Fault := Sys2Proof.Machine.Fault, Refusal := Sys2Proof.Machine.Refusal, step := Sys2Proof.Machine.step, reset := Sys2Proof.Machine.State.reset }
end

