-- ==== Sys2Proof/Machine/Assembler.lean ====
section
/-! DEFINITION. The textual form of a command sequence (rule R58) and the pseudo-instructions (rule
R59). The block never sees text: a program's words are what the host issues. -/

namespace Sys2Proof.Asm

/-! ### Characters, blanks, separators -/

abbrev Text := List Char

def isBlank (ch : Char) : Bool := ch == ' ' || ch == '\t' || ch == '\r'

/-- Without the blanks at both ends. -/
def trim (t : Text) : Text := ((t.dropWhile isBlank).reverse.dropWhile isBlank).reverse

/-- The parts between the separators, in order; a text without the separator is one part. -/
def splitAtChar (sep : Char) : Text → List Text
  | [] => [[]]
  | ch :: rest =>
    match splitAtChar sep rest with
    | [] => [[ch]]
    | part :: parts => if ch == sep then [] :: part :: parts else (ch :: part) :: parts

/-! ### Numbers -/

/-- The value of a decimal digit. -/
def decDigit (ch : Char) : Option Nat :=
  if '0' ≤ ch ∧ ch ≤ '9' then some (ch.toNat - '0'.toNat) else none

/-- The value of a hexadecimal digit, small letters. -/
def hexDigit (ch : Char) : Option Nat :=
  if 'a' ≤ ch ∧ ch ≤ 'f' then some (ch.toNat - 'a'.toNat + 10) else decDigit ch

/-- Digits in a base, most significant first, continuing a value. -/
def digitsFrom (base : Nat) (digit : Char → Option Nat) : Nat → Text → Option Nat
  | acc, [] => some acc
  | acc, ch :: rest =>
    match digit ch with
    | some d => digitsFrom base digit (acc * base + d) rest
    | none => none

/-- A decimal number of one digit or more. -/
def decimal? (t : Text) : Option Nat := if t.isEmpty then none else digitsFrom 10 decDigit 0 t

/-- Hexadecimal digits, one or more. -/
def hexDigits? (t : Text) : Option Nat := if t.isEmpty then none else digitsFrom 16 hexDigit 0 t

/-- A decimal number, or `0x` and hexadecimal digits. -/
def number? : Text → Option Nat
  | '0' :: 'x' :: t => hexDigits? t
  | t => decimal? t

/-- The nearest datum, ties to even, of `digits * 10^-places * 10^exp`. -/
def decimalFloat (digits places : Nat) (exp : Int) : F32 :=
  rn (digits * 10 ^ exp.toNat : Nat) (10 ^ places * 10 ^ (-exp).toNat)

/-- An exponent: digits with an optional sign. -/
def exponent? : Text → Option Int
  | '-' :: t => (decimal? t).map fun n => -(n : Int)
  | '+' :: t => (decimal? t).map fun n => (n : Int)
  | t => (decimal? t).map fun n => (n : Int)

/-- The digits before an exponent: `440`, `440.0`. -/
def mantissa? (t : Text) : Option (Nat × Nat) :=
  match splitAtChar '.' t with
  | [whole] => (decimal? whole).map fun n => (n, 0)
  | [whole, frac] =>
    match decimal? whole, decimal? (whole ++ frac), frac.isEmpty with
    | some _, some n, false => some (n, frac.length)
    | _, _, _ => none
  | _ => none

/-- `<float>`: a decimal literal, rounded to the nearest datum, or `0x` and eight hexadecimal digits,
the bit pattern itself. -/
def float? : Text → Option F32
  | '0' :: 'x' :: t => if t.length = 8 then (hexDigits? t).map (BitVec.ofNat 32) else none
  | t =>
    match splitAtChar 'e' t with
    | [m] => (mantissa? m).map fun v => decimalFloat v.1 v.2 0
    | [m, e] =>
      match mantissa? m, exponent? e with
      | some v, some x => some (decimalFloat v.1 v.2 x)
      | _, _ => none
    | _ => none

/-! ### Operands -/

/-- `<kind>`: a name or a decimal number 0 to 4. -/
def kind? (t : Text) : Option Kind :=
  if t = "sine".toList then some .sine
  else if t = "triangle".toList then some .triangle
  else if t = "saw".toList then some .saw
  else if t = "square".toList then some .square
  else if t = "noise".toList then some .noise
  else match decimal? t with
    | some n => if n < 8 then kindOfCode (BitVec.ofNat 3 n) else none
    | none => none

/-- `<reg>`: a name or a decimal number 0 to 6. -/
def reg? (t : Text) : Option Reg :=
  if t = "kind".toList then some .kind
  else if t = "freq".toList then some .freq
  else if t = "rate".toList then some .rate
  else if t = "delta".toList then some .delta
  else if t = "phase".toList then some .phase
  else if t = "built".toList then some .built
  else if t = "geom".toList then some .geom
  else match decimal? t with
    | some n => if n < 16 then regOfNumber (BitVec.ofNat 4 n) else none
    | none => none

/-- `<index>`: a decimal or hexadecimal number that fits the field; its range is checked last. -/
def index? (t : Text) : Option (BitVec 24) :=
  match number? t with
  | some n => if n < 2 ^ 24 then some (BitVec.ofNat 24 n) else none
  | none => none

/-- `o<j>`, `j` decimal, 0 to 15. -/
def osc? : Text → Option (BitVec 4)
  | 'o' :: t =>
    match decimal? t with
    | some n => if n < 16 then some (BitVec.ofNat 4 n) else none
    | none => none
  | _ => none

/-! ### Lines -/

/-- A command with an oscillator and no further operand: `NEXT [o<j>]`. -/
def bare (mk : BitVec 4 → List Instr) : List Text → Option (List Instr)
  | [] => some (mk 0)
  | [o] => (osc? o).map mk
  | _ => none

/-- A command with an oscillator and one operand: `SETWT [o<j>,] <kind>`. -/
def withOne {α : Type} (read : Text → Option α) (mk : BitVec 4 → α → List Instr) :
    List Text → Option (List Instr)
  | [x] => (read x).map (mk 0)
  | [o, x] =>
    match osc? o, read x with
    | some j, some v => some (mk j v)
    | _, _ => none
  | _ => none

/-- `START [o<j>,] <rate>, <freq>` (rule R59). -/
def expandStart (j : BitVec 4) (rate freq : F32) : List Instr :=
  [.warmup, .setsr j rate, .setfq j freq]

/-- `TICK [o<j>,] <freq>` (rule R59). -/
def expandTick (j : BitVec 4) (freq : F32) : List Instr := [.setfq j freq, .next j]

/-- `BLOCK [o<j>,] <kind>` (rule R59). -/
def expandBlock (j : BitVec 4) (k : Kind) : List Instr := [.setwt j k]

/-- The operands of START. -/
def startOperands : List Text → Option (List Instr)
  | [r, f] =>
    match float? r, float? f with
    | some r, some f => some (expandStart 0 r f)
    | _, _ => none
  | [o, r, f] =>
    match osc? o, float? r, float? f with
    | some j, some r, some f => some (expandStart j r f)
    | _, _, _ => none
  | _ => none

/-- The commands of a mnemonic and its operands, both in small letters, before the last range check. -/
def commands (mnemonic : Text) (operands : List Text) : Option (List Instr) :=
  if mnemonic = "warmup".toList then (if operands.isEmpty then some [.warmup] else none)
  else if mnemonic = "setwt".toList then withOne kind? (fun j k => [.setwt j k]) operands
  else if mnemonic = "setsr".toList then withOne float? (fun j f => [.setsr j f]) operands
  else if mnemonic = "setfq".toList then withOne float? (fun j f => [.setfq j f]) operands
  else if mnemonic = "next".toList then bare (fun j => [.next j]) operands
  else if mnemonic = "tabrd".toList then
    match operands with
    | [k, i] =>
      match kind? k, index? i with
      | some k, some i => some [.tabrd k i]
      | _, _ => none
    | _ => none
  else if mnemonic = "rdreg".toList then withOne reg? (fun j r => [.rdreg j r]) operands
  else if mnemonic = "oscrst".toList then bare (fun j => [.oscrst j]) operands
  else if mnemonic = "start".toList then startOperands operands
  else if mnemonic = "tick".toList then withOne float? expandTick operands
  else if mnemonic = "block".toList then withOne kind? expandBlock operands
  else none

/-- A line cut into the mnemonic and the operand texts, without its comment, in small letters. R58 makes
mnemonics and names case-insensitive; that the prefix `0x`, the exponent letter and the hexadecimal
digits of a number may be capitals too is the model's choice (DESIGN CHOICE: log entry 14). -/
def cutLine (line : Text) : Text × List Text :=
  let t := trim ((line.takeWhile (· != ';')).map Char.toLower)
  let rest := trim (t.dropWhile fun ch => !isBlank ch)
  (t.takeWhile fun ch => !isBlank ch, if rest.isEmpty then [] else (splitAtChar ',' rest).map trim)

/-- One line (rules R58 and R59): no command for an empty line or a comment, and `none` where the
assembler rejects the line, "so it never emits a reserved word". -/
def assembleLine (c : Config) (line : Text) : Option (List Instr) :=
  if (cutLine line).1.isEmpty then some []
  else
    match commands (cutLine line).1 (cutLine line).2 with
    | some is => if is.all (wellFormedWith c) then some is else none
    | none => none

/-- The lines of a program, in order, all or nothing. -/
def assembleLines (c : Config) : List Text → Option (List Instr)
  | [] => some []
  | line :: lines =>
    match assembleLine c line, assembleLines c lines with
    | some is, some rest => some (is ++ rest)
    | _, _ => none

/-- The command words of a program text for this hardware, one command per line. -/
def assemble (program : String) : Option (List CmdWord) :=
  (assembleLines Config.hw (splitAtChar '\n' program.toList)).map (List.map encode)

end Sys2Proof.Asm
end

