-- ==== Sys2Proof/Safety.lean ====
section
/-! DEFINITION. What a good state is, and the words claims are stated in. -/

namespace Sys2Proof.Machine

/-- The distance from a finite datum to the next one of greater magnitude: the unit in its last place
(rule R120). -/
def spacing (x : F32) : ℚ := 2 ^ max (expField x) 1 / 2 ^ 150

/-- What rule R74 and entry U8 ask of a word `w` of `SIN_ROM` at index `i`: finite, of magnitude at most
1, and within `eps` of `Ideal(0, i) = sin(2 pi i / (N - 1))`. -/
def SineWordOk (log2N : Nat) (eps : ℚ) (w : F32) (i : Nat) : Prop :=
  isFinite w = true ∧ |val w| ≤ 1
    ∧ |((val w : ℚ) : ℝ) - Real.sin (2 * Real.pi * (i : ℝ) / ((2 : ℝ) ^ log2N - 1))| ≤ (eps : ℝ)

/-- The legal parameters of rule R4, with the extra condition of rule R162, the constraint of rule R74
and entry U8 on `SIN_ROM`, and clause (a) of rule R78 on `NOISE_ROM`. -/
structure Legal (c : Config) : Prop where
  log2N_lo : 2 ≤ c.log2N
  log2N_hi : c.log2N ≤ 23
  numOsc_lo : 1 ≤ c.numOsc
  numOsc_hi : c.numOsc ≤ 16
  defaultFreq_pos : isPos c.defaultFreq = true
  defaultRate_pos : isPos c.defaultRate = true
  defaultDelta_inRange : inRange c.log2N (deltaOf c.log2N c.defaultFreq c.defaultRate) = true
  sin_ok : ∀ i < c.size, SineWordOk c.log2N c.sinEps (c.sinRom i) i
  noise_ok : ∀ draw i, noiseOk (c.noiseRom draw i) = true

/-- What holds of an oscillator that is not undefined, after every command: rule R14 (`delta` is
derived), rule R15 (the phase is in range), and P1 and P2 of rule R141. -/
def oscGood (c : Config) (o : Osc) : Prop :=
  o.undef = false →
    isPos o.frequency = true ∧ isPos o.sampleRate = true
      ∧ o.delta = deltaOf c.log2N o.frequency o.sampleRate
      ∧ inRange c.log2N o.continuousIndex = true

/-- A built table holds its ROM and an unbuilt one holds no word (rules R19, R20, R32, R73). -/
def tableGood (c : Config) (s : State) (k : Kind) : Prop :=
  ∀ i < c.size, listedWord s.tab (tableAddr c k i)
    = if isBuilt s.built k then some (rom c s.noiseDraw k i) else none

/-- The invariant of the block. -/
structure Inv (c : Config) (s : State) : Prop where
  tab_wf : Memory.wf s.tab
  tab_inside : ∀ x ∈ s.tab, x.1 < tabWords c
  tables : ∀ k, tableGood c s k
  oscs_length : s.oscs.length = c.numOsc
  oscs_good : ∀ o ∈ s.oscs, oscGood c o

/-- The word a read of entry `i` of table `k` answers (rule R33): the stored word of a built table, the
table's ROM where the read builds it first. -/
def tableWord (c : Config) (s : State) (k : Kind) (i : Nat) : F32 :=
  if isBuilt s.built k then
    (listedWord s.tab (tableAddr c k i)).getD (Config.unspecifiedWord s.noiseDraw (tableAddr c k i))
  else rom c s.noiseDraw k i

/-- The command answers with one response word (rule R54). -/
def answers : Instr → Bool
  | .warmup => false
  | .setwt _ _ => false
  | .setsr _ _ => false
  | .setfq _ _ => false
  | .next _ => true
  | .tabrd _ _ => true
  | .rdreg _ _ => true
  | .oscrst _ => false

/-- The oscillator a command addresses (rule R52). -/
def addressed : Instr → Option (BitVec 4)
  | .warmup => none
  | .setwt j _ => some j
  | .setsr j _ => some j
  | .setfq j _ => some j
  | .next j => some j
  | .tabrd _ _ => none
  | .rdreg j _ => some j
  | .oscrst j => some j

/-- Nothing of the table store changes: no table word and no built flag. -/
def sameTables (s t : State) : Prop := t.tab = s.tab ∧ t.built = s.built

/-- The table store of `t` is that of `s` but for the construction of table `k`, if it was unbuilt: its
flag is set, each of its words is its ROM, and every other word of TAB and every other flag stays. -/
def demanded (c : Config) (k : Kind) (s t : State) : Prop :=
  (isBuilt s.built k = true → sameTables s t)
    ∧ (isBuilt s.built k = false →
        t.built = setBuilt s.built k
          ∧ (∀ i < c.size, listedWord t.tab (tableAddr c k i) = some (rom c s.noiseDraw k i))
          ∧ ∀ a, (a < tableAddr c k 0 ∨ tableAddr c k 0 + c.size ≤ a) →
              listedWord t.tab a = listedWord s.tab a)

/-- Nothing outside the block and its table store changes: the noise draw and what the host is yet to
do. -/
def sameRest (s t : State) : Prop := t.noiseDraw = s.noiseDraw ∧ t.events = s.events

end Sys2Proof.Machine
end

