-- ==== Sys2Proof/Certificates/Slice0/Obligations.lean ====
section
/-! DEFINITION. The statements for the provers, from the numbered rules of the spec. -/

open Sys2Proof Sys2Proof.Machine

/-! ### Encoding (30_encoding.md) -/

/-- Words of 95_test_vectors.md section 2.1 decode to the commands that section names (rules R51, R55,
R62). -/
def Obligations.SpecWordsDecodeToTheirCommands : Prop :=
  decode 0x0100000000#40 = .ok .warmup
    ∧ decode 0x0200000004#40 = .ok (.setwt 0 .noise)
    ∧ decode 0x0347000000#40 = .ok (.setsr 0 0x47000000#32)
    ∧ decode 0x0400000001#40 = .ok (.setfq 0 0x00000001#32)
    ∧ decode 0x0500000000#40 = .ok (.next 0)
    ∧ decode 0x06007FFF00#40 = .ok (.tabrd .sine 32767)
    ∧ decode 0x0700000006#40 = .ok (.rdreg 0 .geom)
    ∧ decode 0x0800000000#40 = .ok (.oscrst 0)
    ∧ decode 0x0600800000#40 = .error .index
    ∧ decode 0x0200000005#40 = .error .kind

/-- Decode and encode agree, for any parameters: no operand of a well-formed command is dropped (rules
R51, R53, R62). -/
def Obligations.DecodeOfEncodeIsTheInstruction : Prop :=
  ∀ (c : Config) (i : Instr), wellFormedWith c i = true → decodeWith c (encode i) = .ok i

/-- The other direction: a word that decodes carries a well-formed command and is that command's one
word (rules R51, R56). -/
def Obligations.EncodeOfDecodeIsTheWord : Prop :=
  ∀ (c : Config) (w : CmdWord) (i : Instr),
    decodeWith c w = .ok i → wellFormedWith c i = true ∧ encode i = w

/-- A word that decodes to a command matches that command's row of the opcode map and no other row
(rules R56, R62). -/
def Obligations.DecodedWordMatchesItsOpcodeRowAlone : Prop :=
  ∀ (w : CmdWord) (i : Instr), decode w = .ok i →
    w &&& (opcodeRow i).mask = (opcodeRow i).pattern
      ∧ ∀ i' : Instr, w &&& (opcodeRow i').mask = (opcodeRow i').pattern → opcodeRow i' = opcodeRow i

/-- The reserved words are exactly those of the six conditions of rule R55, for any parameters, the
all-zero word among them, and a step on one is refused by its condition, whatever the state. -/
def Obligations.ReservedWordsAreTheSixConditions : Prop :=
  (∀ (c : Config) (w : CmdWord),
    (∃ why, decodeWith c w = .error why) ↔
      ((w.toNat / 2 ^ 32 % 16 = 0 ∨ 9 ≤ w.toNat / 2 ^ 32 % 16)
        ∨ ((w.toNat / 2 ^ 32 % 16 = 1 ∨ w.toNat / 2 ^ 32 % 16 = 5 ∨ w.toNat / 2 ^ 32 % 16 = 8)
            ∧ w.toNat % 2 ^ 32 ≠ 0)
        ∨ (w.toNat / 2 ^ 32 % 16 = 2 ∧ w.toNat % 2 ^ 32 / 8 ≠ 0)
        ∨ (w.toNat / 2 ^ 32 % 16 = 6 ∧ w.toNat / 8 % 32 ≠ 0)
        ∨ (w.toNat / 2 ^ 32 % 16 = 7 ∧ w.toNat % 2 ^ 32 / 16 ≠ 0)
        ∨ ((w.toNat / 2 ^ 32 % 16 = 2 ∨ w.toNat / 2 ^ 32 % 16 = 6) ∧ 5 ≤ w.toNat % 8)
        ∨ (w.toNat / 2 ^ 32 % 16 = 6 ∧ c.size ≤ w.toNat % 2 ^ 32 / 256)
        ∨ (w.toNat / 2 ^ 32 % 16 = 7 ∧ 7 ≤ w.toNat % 16)
        ∨ ((2 ≤ w.toNat / 2 ^ 32 % 16 ∧ w.toNat / 2 ^ 32 % 16 ≤ 8 ∧ w.toNat / 2 ^ 32 % 16 ≠ 6)
            ∧ c.numOsc ≤ w.toNat / 2 ^ 36)
        ∨ ((w.toNat / 2 ^ 32 % 16 = 1 ∨ w.toNat / 2 ^ 32 % 16 = 6) ∧ w.toNat / 2 ^ 36 ≠ 0)))
    ∧ (∀ (s : State) (w : CmdWord) (rest : List HostEvent) (why : Reserved),
        s.events = .cmd w :: rest → decode w = .error why →
          step s = .refused (.reservedCommand why))
    ∧ decode 0x0000000000#40 = .error .opcode

/-! ### The step (rules R5, R161, R171) -/

/-- A step on a word that decodes is `exec` of that command, the event taken; with nothing issued the
block is idle (the model's reading of "it is idle and would accept another", log entry 3); and what
`withFetchWord` places is what the next step runs. -/
def Obligations.StepRunsTheDecodedCommand : Prop :=
  (∀ (s : State) (w : CmdWord) (rest : List HostEvent) (i : Instr),
      s.events = .cmd w :: rest → decode w = .ok i → step s = exec i { s with events := rest })
    ∧ (∀ s : State, s.events = [] → step s = .next s)
    ∧ (∀ (s : State) (i : Instr), wellFormed i = true →
        step (s.withFetchWord 40 (encode i).toNat) = exec i s)

/-! ### The assembler (rules R58, R59) -/

/-- Whatever program text the assembler accepts, every word it emits decodes: "it never emits a
reserved word" (rule R58). -/
def Obligations.AssemblerEmitsNoReservedWord : Prop :=
  ∀ (program : String) (words : List CmdWord), Asm.assemble program = some words →
    ∀ w ∈ words, ∃ i, decode w = .ok i

/-- The pseudo-instructions (rule R59): for all operand texts, with the oscillator named and with it
left out, START gives the commands of the lines WARMUP, SETSR and SETFQ with its operands, TICK those of
SETFQ and NEXT, BLOCK that of SETWT, in that order, and is rejected where one of those lines is; and a
line of each, down to the words. -/
def Obligations.PseudoInstructionsExpandAsListed : Prop :=
  (∀ o r f : Asm.Text,
      Asm.commands "start".toList [o, r, f]
          = ((Asm.commands "warmup".toList []).bind fun a =>
              (Asm.commands "setsr".toList [o, r]).bind fun b =>
                (Asm.commands "setfq".toList [o, f]).map fun c => a ++ b ++ c)
        ∧ Asm.commands "start".toList [r, f]
          = ((Asm.commands "warmup".toList []).bind fun a =>
              (Asm.commands "setsr".toList [r]).bind fun b =>
                (Asm.commands "setfq".toList [f]).map fun c => a ++ b ++ c))
    ∧ (∀ o f : Asm.Text,
      Asm.commands "tick".toList [o, f]
          = ((Asm.commands "setfq".toList [o, f]).bind fun a =>
              (Asm.commands "next".toList [o]).map fun b => a ++ b)
        ∧ Asm.commands "tick".toList [f]
          = ((Asm.commands "setfq".toList [f]).bind fun a =>
              (Asm.commands "next".toList []).map fun b => a ++ b))
    ∧ (∀ o k : Asm.Text,
      Asm.commands "block".toList [o, k] = Asm.commands "setwt".toList [o, k]
        ∧ Asm.commands "block".toList [k] = Asm.commands "setwt".toList [k])
    ∧ Asm.assemble "START o0, 48000.0, 440.0" = some [0x0100000000#40, 0x03473B8000#40, 0x0443DC0000#40]
    ∧ Asm.assemble "TICK 880.0" = some [0x04445C0000#40, 0x0500000000#40]
    ∧ Asm.assemble "BLOCK SQUARE ; per block" = some [0x0200000003#40]

/-! ### Reset (rules R25, R161, R162) -/

/-- The state after reset holds the values of rule R25's listing for this hardware: the five registers
of the one oscillator, no table built, no table word. -/
def Obligations.ResetHoldsTheListedValues : Prop :=
  State.reset.oscs
      = [⟨.sine, 0x43DC0000#32, 0x472C4400#32, 0x43A377EE#32, 0x00000000#32, false⟩]
    ∧ (∀ k, isBuilt State.reset.built k = false)
    ∧ (∀ a, listedWord State.reset.tab a = none)
    ∧ State.reset.responses = []

/-- The hardware reset from any state (rule R161): every oscillator as created and so no longer
undefined, every table unbuilt and without a word, the next noise draw (log entry 6), no response
pending, and the host's later events kept. -/
def Obligations.HardwareResetRestoresEverything : Prop :=
  ∀ (s : State) (rest : List HostEvent), s.events = .rst :: rest →
    ∃ t, step s = .next t
      ∧ t.oscs = [⟨.sine, 0x43DC0000#32, 0x472C4400#32, 0x43A377EE#32, 0x00000000#32, false⟩]
      ∧ (∀ k, isBuilt t.built k = false) ∧ (∀ a, listedWord t.tab a = none)
      ∧ t.noiseDraw = s.noiseDraw + 1 ∧ t.responses = [] ∧ t.events = rest

/-- The first command after reset may be NEXT (rule R162): it builds the sine table and no other,
answers 0x00000000, and advances the phase by the reset increment. -/
def Obligations.FirstNextAfterResetAnswersZero : Prop :=
  ∃ t, step (State.reset.withFetchWord 40 0x0500000000) = .next t
    ∧ t.responses = [0x00000000#32] ∧ builtWord t.built = 0x00000001#32
    ∧ t.oscs = [⟨.sine, 0x43DC0000#32, 0x472C4400#32, 0x43A377EE#32, 0x43A377EE#32, false⟩]

/-! ### The invariant (rules R14, R15, R19, R20, R32) -/

/-- The state after reset, and after a hardware reset from any state, meets the invariant, for any
legal parameters. -/
def Obligations.ResetMeetsTheInvariant : Prop :=
  ∀ c : Config, Legal c → Inv c (State.resetWith c) ∧ ∀ s : State, Inv c (hardReset c s)

/-- Every step keeps the invariant: TAB stays canonical and inside its space, a built table holds
exactly its ROM and an unbuilt one no word, and every oscillator that is not undefined has the
derived `delta`, a phase in range, and a positive frequency and rate. -/
def Obligations.EveryStepKeepsTheInvariant : Prop :=
  ∀ s t : State, Inv Config.hw s → step s = .next t → Inv Config.hw t

/-! ### The table store (20_memory.md, 40_table_store.md) -/

/-- The table addresses (rule R30): every entry of every table is inside the `5 * N` words, two entries
never share a word, and an address from `5 * N` up does not exist. -/
def Obligations.TableAddressesAreDistinctAndInside : Prop :=
  (∀ (c : Config) (k : Kind) (i : Nat), i < c.size →
      tableAddr c k i = kindCode k * c.size + i ∧ tableAddr c k i < 5 * c.size)
    ∧ (∀ (c : Config) (k k' : Kind) (i i' : Nat), i < c.size → i' < c.size →
        tableAddr c k i = tableAddr c k' i' → k = k' ∧ i = i')
    ∧ (∀ (c : Config) (s : State) (a : Nat), 5 * c.size ≤ a →
        memRead c s a = .error .outsideTableSpace)
    ∧ tableAddr Config.hw .triangle 0 = 0x08000 ∧ tableAddr Config.hw .saw 0 = 0x10000
    ∧ tableAddr Config.hw .square 16384 = 0x1C000 ∧ tableAddr Config.hw .noise 32767 = 0x27FFF

/-- The one-step construction is the loop of rule R70: `MemWrite` of each of the `N` words, in order,
and then the flag. -/
def Obligations.BuildIsTheLoopOfWordWrites : Prop :=
  ∀ (c : Config) (k : Kind) (s : State), Memory.wf s.tab → isBuilt s.built k = false →
    build c k s
      = { (List.range c.size).foldl
            (fun t i => memWrite (tableAddr c k i) (rom c t.noiseDraw k i) t) s with
          built := setBuilt s.built k }

/-- WARMUP (rule R72): every table is built; an unbuilt one gets its ROM, a built one keeps every word;
no oscillator register, no response and no word outside the five tables changes; when all are built
it is a no-op. -/
def Obligations.WarmupBuildsEveryTable : Prop :=
  (∀ s : State, ∃ t, exec .warmup s = .next t
    ∧ (∀ k, isBuilt t.built k = true)
    ∧ (∀ k, isBuilt s.built k = false → ∀ i < 32768,
        listedWord t.tab (kindCode k * 32768 + i) = some (rom Config.hw s.noiseDraw k i))
    ∧ (∀ k, isBuilt s.built k = true → ∀ i < 32768,
        listedWord t.tab (kindCode k * 32768 + i) = listedWord s.tab (kindCode k * 32768 + i))
    ∧ (∀ a, 5 * 32768 ≤ a → listedWord t.tab a = listedWord s.tab a)
    ∧ t.oscs = s.oscs ∧ t.responses = s.responses ∧ t.freeCount = s.freeCount ∧ sameRest s t)
    ∧ (∀ s : State, (∀ k, isBuilt s.built k = true) → exec .warmup s = .next s)
    ∧ encode .warmup = 0x0100000000#40

/-- TABRD (rule R79): it answers the word of the table, building that table and no other first if it is
unbuilt, and disturbs no oscillator; in a good state the word is the table's ROM. A word with an index
of `N` or more is reserved (rule R55), and `exec` on such a term answers the same refusal (the model's
reading, log entry 13). -/
def Obligations.TabrdAnswersTheTableWord : Prop :=
  (∀ (k : Kind) (index : BitVec 24) (s : State), index.toNat < 32768 →
    ∃ t, exec (.tabrd k index) s = .next t
      ∧ t.responses = s.responses ++ [tableWord Config.hw s k index.toNat]
      ∧ (Inv Config.hw s →
          tableWord Config.hw s k index.toNat = rom Config.hw s.noiseDraw k index.toNat)
      ∧ demanded Config.hw k s t ∧ isBuilt t.built k = true
      ∧ t.oscs = s.oscs ∧ t.freeCount = s.freeCount ∧ sameRest s t)
    ∧ (∀ (k : Kind) (index : BitVec 24) (s : State), 32768 ≤ index.toNat →
        decode (encode (.tabrd k index)) = .error .index
          ∧ exec (.tabrd k index) s = .refused (.reservedCommand .index))
    ∧ (∀ (k : Kind) (index : BitVec 24),
        (encode (.tabrd k index)).toNat = 0x0600000000 + index.toNat * 2 ^ 8 + kindCode k)

/-- Stability (rule R81): however many steps are run from a good state without a reset, every table
read returns the same word. -/
def Obligations.TableReadsAreStableBetweenResets : Prop :=
  ∀ (n : Nat) (s t : State), Inv Config.hw s → .rst ∉ s.events →
    Host.Core.run Sys2Proof.core n s = .next t →
    ∀ (k : Kind) (i : Nat), i < 32768 →
      (tabRead Config.hw k i t).map Prod.fst = (tabRead Config.hw k i s).map Prod.fst

/-- Exactly-once construction (rules R32, R41): no command, in whatever state, clears the flag of a
built table or changes one of its words. -/
def Obligations.BuiltTablesAreNeverRewritten : Prop :=
  ∀ (i : Instr) (s t : State) (k : Kind), exec i s = .next t → isBuilt s.built k = true →
    isBuilt t.built k = true
      ∧ ∀ n < 32768,
          listedWord t.tab (kindCode k * 32768 + n) = listedWord s.tab (kindCode k * 32768 + n)

/-- A table is built only by a command that demands it (rules R45, R71): WARMUP, SETWT or TABRD of that
kind, or NEXT on an oscillator that selects it. -/
def Obligations.OnlyADemandBuildsATable : Prop :=
  ∀ (i : Instr) (s t : State) (k : Kind), exec i s = .next t →
    isBuilt s.built k = false → isBuilt t.built k = true →
      i = .warmup ∨ (∃ j, i = .setwt j k) ∨ (∃ index, i = .tabrd k index)
        ∨ ∃ j o, i = .next j ∧ osc? s j = some o ∧ o.kind = k

/-! ### The tables (rules R73 to R80) -/

/-- Sine (rule R74, entry U8): for every legal table size each word is within half the unit in its last
place of the sine, and within `2^-25`, but for an allowance of `2^-60` for the model's series, relative
and absolute (log entry 7); no word exceeds 1 in magnitude; the first and the last word are `+0.0`; the
table is antisymmetric. These are the words the generator stores on this hardware. -/
def Obligations.SineTableFollowsTheSine : Prop :=
  (∀ L : Nat, 2 ≤ L → L ≤ 23 → ∀ i : Nat, i < 2 ^ L →
    SineWordOk L (1 / 2 ^ 25 + 1 / 2 ^ 60) (sinWord (2 ^ L - 1) i) i
      ∧ |((val (sinWord (2 ^ L - 1) i) : ℚ) : ℝ)
          - Real.sin (2 * Real.pi * (i : ℝ) / ((2 : ℝ) ^ L - 1))|
          ≤ ((spacing (sinWord (2 ^ L - 1) i) / 2 : ℚ) : ℝ)
            + |Real.sin (2 * Real.pi * (i : ℝ) / ((2 : ℝ) ^ L - 1))| / 2 ^ 60
      ∧ sinWord (2 ^ L - 1) 0 = 0x00000000#32
      ∧ sinWord (2 ^ L - 1) (2 ^ L - 1) = 0x00000000#32
      ∧ (0 < i → i < 2 ^ L - 1 →
          sinWord (2 ^ L - 1) (2 ^ L - 1 - i) = fneg (sinWord (2 ^ L - 1) i)))
    ∧ ∀ draw i : Nat, rom Config.hw draw .sine i = sinWord (2 ^ 15 - 1) i

/-- Triangle (rule R75), for every legal table size and whatever the draw: each stored word of the rising
half is nearest to `-1 + 4i/(N-1)`, the second half mirrors it, index 0 holds `-1.0`; and this hardware's
words at the start, the quarters, the peak and the end. -/
def Obligations.TriangleTableIsTheMirroredRamp : Prop :=
  (∀ (c : Config) (draw : Nat), 2 ≤ c.log2N → c.log2N ≤ 23 →
    (∀ i ≤ c.half, isFinite (rom c draw .triangle i) = true
      ∧ ∀ y : F32, isFinite y = true →
          |val (rom c draw .triangle i) - (-1 + 4 * (i : ℚ) / ((c.size : ℚ) - 1))|
            ≤ |val y - (-1 + 4 * (i : ℚ) / ((c.size : ℚ) - 1))|)
    ∧ (∀ i, 1 ≤ i → i ≤ c.half → rom c draw .triangle (c.size - i) = rom c draw .triangle i)
    ∧ rom c draw .triangle 0 = 0xBF800000#32)
    ∧ ∀ draw : Nat,
      rom Config.hw draw .triangle 8192 = 0x38000100#32
        ∧ rom Config.hw draw .triangle 16384 = 0x3F800200#32
        ∧ rom Config.hw draw .triangle 24577 = 0xB8C00180#32
        ∧ rom Config.hw draw .triangle 32767 = 0xBF7FF800#32

/-- Saw (rule R76), for every legal table size and whatever the draw: the stored words are two ramps,
exactly representable, the second a copy of the first, a zero stored as `+0.0`, and `+1.0` never
reached. -/
def Obligations.SawTableIsTwoExactRamps : Prop :=
  ∀ (c : Config) (draw : Nat), 2 ≤ c.log2N → c.log2N ≤ 23 → ∀ i < c.size,
    isFinite (rom c draw .saw i) = true
      ∧ val (rom c draw .saw i) = -1 + 4 * ((i % c.half : Nat) : ℚ) / (c.size : ℚ)
      ∧ (i < c.half → rom c draw .saw (i + c.half) = rom c draw .saw i)
      ∧ (val (rom c draw .saw i) = 0 → rom c draw .saw i = 0x00000000#32)
      ∧ val (rom c draw .saw i) ≤ 1 - 4 / (c.size : ℚ)
      ∧ val (rom c draw .saw (c.half - 1)) = 1 - 4 / (c.size : ℚ)

/-- Square (rule R77): `+0.0` in the first half and 1.0 in the second, exact. -/
def Obligations.SquareTableIsZeroThenOne : Prop :=
  ∀ (c : Config) (draw i : Nat),
    (i < c.half → rom c draw .square i = 0x00000000#32)
      ∧ (c.half ≤ i → rom c draw .square i = 0x3F800000#32)

/-- Noise (rule R78, clause (a)): every word of every draw is finite and in `[-1, 1]`; and nothing more
is fixed: every word that meets the clause stands for itself under the model's limit (log entry 5). -/
def Obligations.NoiseWordsMeetTheirRangeAndNoMore : Prop :=
  (∀ draw i : Nat, isFinite (rom Config.hw draw .noise i) = true
      ∧ |val (rom Config.hw draw .noise i)| ≤ 1)
    ∧ ∀ w : F32, isFinite w = true → |val w| ≤ 1 → noiseClip w = w

/-- Range (rule R80), for this hardware: no word of a table is NaN or infinite, each is at least -1, and
each is at most 1 but the triangle's peak, which is at most `1 + 2/(N-1)`. -/
def Obligations.TableWordsStayInRange : Prop :=
  ∀ (draw : Nat) (k : Kind) (i : Nat), i < 32768 →
    isFinite (rom Config.hw draw k i) = true
      ∧ -1 ≤ val (rom Config.hw draw k i)
      ∧ val (rom Config.hw draw k i) ≤ 1 + 2 / 32767
      ∧ (¬ (k = .triangle ∧ i = 16384) → val (rom Config.hw draw k i) ≤ 1)

/-! ### Numerics (43_numerics.md) -/

/-- `RN` (rule R121): a real 0 gives `+0.0`; below `2^128 - 2^103` the result is finite, no datum is
nearer, and at a tie its fraction is even; from there up it is the infinity of the sign. -/
def Obligations.RoundingIsToNearestTiesToEven : Prop :=
  ∀ (num : ℤ) (den : ℕ), 0 < den →
    (num = 0 → rn num den = 0x00000000#32)
      ∧ (|(num : ℚ) / den| < 2 ^ 128 - 2 ^ 103 →
          isFinite (rn num den) = true
            ∧ ∀ y : F32, isFinite y = true →
                |val (rn num den) - num / den| ≤ |val y - num / den|
                  ∧ (|val y - num / den| = |val (rn num den) - num / den| →
                      val y ≠ val (rn num den) → fracField (rn num den) % 2 = 0))
      ∧ (2 ^ 128 - 2 ^ 103 ≤ |(num : ℚ) / den| →
          rn num den = if num < 0 then 0xFF800000#32 else 0x7F800000#32)

/-- The operations on finite operands (rule R122) are `RN` of the exact sum, difference, product and
quotient, with the signs the rule gives zeros. A datum's `units` are its value in `2^-149`. -/
def Obligations.FiniteArithmeticRoundsTheExactResult : Prop :=
  ∀ x y : F32, isFinite x = true → isFinite y = true →
    fadd x y = (if units x + units y = 0 then zero (signBit x && signBit y)
                else rn (units x + units y) (2 ^ 149))
      ∧ fsub x y = (if units x - units y = 0 then zero (signBit x && !signBit y)
                    else rn (units x - units y) (2 ^ 149))
      ∧ fmul x y = (if units x * units y = 0 then zero (signBit x != signBit y)
                    else rn (units x * units y) (2 ^ 298))
      ∧ (units y ≠ 0 →
          fdiv x y = (if units x = 0 then zero (signBit x != signBit y)
                      else rn (if signBit x != signBit y then -(mag x : ℤ) else mag x) (mag y)))

/-- The special operands of rule R122: a NaN operand and the invalid cases give a NaN, infinities
behave as limits, and a division by zero gives an infinity of the exclusive-or sign. -/
def Obligations.SpecialOperandsFollowTheListedClauses : Prop :=
  (∀ x y : F32, isNaN x = true ∨ isNaN y = true →
      isNaN (fadd x y) = true ∧ isNaN (fsub x y) = true
        ∧ isNaN (fmul x y) = true ∧ isNaN (fdiv x y) = true)
    ∧ (∀ x y : F32, isInf x = true → isInf y = true →
        (signBit x ≠ signBit y → isNaN (fadd x y) = true ∧ fsub x y = x)
          ∧ (signBit x = signBit y → isNaN (fsub x y) = true ∧ fadd x y = x)
          ∧ isNaN (fdiv x y) = true)
    ∧ (∀ x y : F32, isInf x = true → isFinite y = true →
        fadd x y = x ∧ fadd y x = x ∧ fsub x y = x ∧ fsub y x = fneg x
          ∧ fdiv y x = zero (signBit x != signBit y)
          ∧ fdiv x y = infinity (signBit x != signBit y))
    ∧ (∀ x y : F32, isInf x = true → isNaN y = false →
        (units y = 0 → isNaN (fmul x y) = true ∧ isNaN (fmul y x) = true)
          ∧ (units y ≠ 0 → fmul x y = infinity (signBit x != signBit y)))
    ∧ (∀ x y : F32, isFinite x = true → units y = 0 →
        (units x ≠ 0 → fdiv x y = infinity (signBit x != signBit y))
          ∧ (units x = 0 → isNaN (fdiv x y) = true))

/-- `ffma` (rule R123): on finite operands one rounding of the exact product and sum, with the rule's
sign of an exact zero (the sign of a zero that a non-zero value underflows to is the model's reading,
log entry 16); with a NaN operand, `0 * inf` or infinities of opposite signs a NaN; otherwise an infinite
product or addend is the result. -/
def Obligations.FusedMultiplyAddRoundsOnce : Prop :=
  (∀ x y z : F32, isFinite x = true → isFinite y = true → isFinite z = true →
    ffma x y z
      = if units x * units y + units z * 2 ^ 149 = 0 then
          zero ((units x == 0 || units y == 0) && (signBit x != signBit y) && signBit z)
        else rn (units x * units y + units z * 2 ^ 149) (2 ^ 298))
    ∧ (∀ x y z : F32, isNaN x = true ∨ isNaN y = true ∨ isNaN z = true → isNaN (ffma x y z) = true)
    ∧ (∀ x y z : F32, isInf x = true → units y = 0 →
        isNaN (ffma x y z) = true ∧ isNaN (ffma y x z) = true)
    ∧ (∀ x y z : F32, isInf x = true → isNaN y = false → units y ≠ 0 → isNaN z = false →
        (isInf z = true ∧ signBit z ≠ (signBit x != signBit y) →
            isNaN (ffma x y z) = true ∧ isNaN (ffma y x z) = true)
          ∧ (¬ (isInf z = true ∧ signBit z ≠ (signBit x != signBit y)) →
            ffma x y z = infinity (signBit x != signBit y)
              ∧ ffma y x z = infinity (signBit x != signBit y)))
    ∧ (∀ x y z : F32, isFinite x = true → isFinite y = true → isInf z = true → ffma x y z = z)

/-- Conversions (rule R124): `ffloor` is the exact floor and keeps the sign of a zero; on an in-range
phase it stays in range and `f2i` gives its integer; `i2f` is exact up to `2^24`. -/
def Obligations.ConversionsAreExact : Prop :=
  (∀ x : F32, isFinite x = true → isFinite (ffloor x) = true ∧ val (ffloor x) = (⌊val x⌋ : ℤ))
    ∧ ffloor 0x00000000#32 = 0x00000000#32 ∧ ffloor 0x80000000#32 = 0x80000000#32
    ∧ (∀ (L : Nat) (x : F32), 2 ≤ L → L ≤ 23 → inRange L x = true →
        0 ≤ val (ffloor x) ∧ val (ffloor x) ≤ 2 ^ L - 1 ∧ f2i L (ffloor x) = ⌊val x⌋.toNat)
    ∧ (∀ n : Nat, n ≤ 2 ^ 24 → isFinite (i2f n) = true ∧ val (i2f n) = n)
    ∧ i2f 32768 = 0x47000000#32

/-- Comparisons (rule R125): by value on finite data, the infinities at the ends, false with a NaN, and
the two zeros equal. -/
def Obligations.ComparisonsFollowTheValues : Prop :=
  (∀ x y : F32, isFinite x = true → isFinite y = true →
      (fge x y = true ↔ val y ≤ val x) ∧ (fgt x y = true ↔ val y < val x)
        ∧ (flt x y = true ↔ val x < val y))
    ∧ (∀ x y : F32, isNaN x = true ∨ isNaN y = true →
        fge x y = false ∧ fgt x y = false ∧ flt x y = false)
    ∧ (∀ y : F32, isFinite y = true →
        (fge 0x7F800000#32 y = true ∧ fgt 0x7F800000#32 y = true ∧ flt 0x7F800000#32 y = false)
          ∧ (fge y 0x7F800000#32 = false ∧ fgt y 0x7F800000#32 = false ∧ flt y 0x7F800000#32 = true)
          ∧ (fge 0xFF800000#32 y = false ∧ fgt 0xFF800000#32 y = false ∧ flt 0xFF800000#32 y = true)
          ∧ (fge y 0xFF800000#32 = true ∧ fgt y 0xFF800000#32 = true ∧ flt y 0xFF800000#32 = false))
    ∧ (∀ x : F32, isInf x = true → fge x x = true ∧ fgt x x = false ∧ flt x x = false)
    ∧ fgt 0x7F800000#32 0xFF800000#32 = true ∧ fge 0x7F800000#32 0xFF800000#32 = true
    ∧ flt 0xFF800000#32 0x7F800000#32 = true ∧ fge 0xFF800000#32 0x7F800000#32 = false
    ∧ fge 0x00000000#32 0x80000000#32 = true ∧ fge 0x80000000#32 0x00000000#32 = true

/-- `Pos` and `InRange` (rule R126), by the bits and by the value. -/
def Obligations.PosAndInRangeAreTheListedData : Prop :=
  (∀ x : F32, isPos x = true ↔
      (x.getLsbD 31 = false ∧ expField x ≠ 255 ∧ ¬ (expField x = 0 ∧ fracField x = 0)))
    ∧ (∀ x : F32, isPos x = true ↔ (isFinite x = true ∧ 0 < val x))
    ∧ (∀ (L : Nat) (x : F32),
        inRange L x = true ↔ (isFinite x = true ∧ 0 ≤ val x ∧ val x < 2 ^ L))
    ∧ inRange 15 0x00000000#32 = true ∧ inRange 15 0x80000000#32 = true
    ∧ inRange 15 0x46FFFFFF#32 = true ∧ inRange 15 0x47000000#32 = false

/-- The fraction is exact (rule R128). -/
def Obligations.FractionIsExact : Prop :=
  ∀ x : F32, isFinite x = true → 0 ≤ val x →
    isFinite (fsub x (ffloor x)) = true
      ∧ val (fsub x (ffloor x)) = val x - val (ffloor x)
      ∧ 0 ≤ val (fsub x (ffloor x)) ∧ val (fsub x (ffloor x)) < 1

/-- The wrap subtraction is exact (rule R129). -/
def Obligations.WrapSubtractionIsExact : Prop :=
  ∀ (L : Nat) (t : F32), 2 ≤ L → L ≤ 23 → isFinite t = true →
    2 ^ L ≤ val t → val t < 2 * 2 ^ L →
      isFinite (fsub t (sizeF L)) = true
        ∧ val (fsub t (sizeF L)) = val t - 2 ^ L
        ∧ 0 ≤ val (fsub t (sizeF L)) ∧ val (fsub t (sizeF L)) < 2 ^ L

/-- Scaling by the table size is exact (rule R130), so `DeltaOf` rounds once, in the division (rule
R90). -/
def Obligations.ScalingByTheTableSizeIsExact : Prop :=
  ∀ (L : Nat) (f : F32), 2 ≤ L → L ≤ 23 → isFinite f = true →
    (|val f| * 2 ^ L < 2 ^ 128 →
        isFinite (fmul f (sizeF L)) = true ∧ val (fmul f (sizeF L)) = val f * 2 ^ L
          ∧ ∀ r : F32, isPos f = true → isPos r = true →
              deltaOf L f r = rn (units f * 2 ^ L) (mag r))
      ∧ (2 ^ 128 ≤ |val f| * 2 ^ L → isInf (fmul f (sizeF L)) = true)

/-- The phase stays in range (rule R131): the rounded sum is below `2N`, the result is in range, and a
sum that rounds up to `N` wraps to `+0.0`. -/
def Obligations.AdvanceKeepsThePhaseInRange : Prop :=
  (∀ (L : Nat) (ci d : F32), 2 ≤ L → L ≤ 23 → inRange L ci = true → inRange L d = true →
      isFinite (fadd ci d) = true ∧ 0 ≤ val (fadd ci d) ∧ val (fadd ci d) < 2 * 2 ^ L
        ∧ inRange L (advance L ci d) = true)
    ∧ advance 15 0x46FFFFFF#32 0x3AC00000#32 = 0x00000000#32

/-! ### NEXT (42_oscillator_sample.md) -/

/-- The two read indices (rules R44, R107): always inside the table; for an in-range phase the first is
the floor and the second the next, wrapping to 0 at the last. -/
def Obligations.ReadIndicesWrapByTheMask : Prop :=
  (∀ (c : Config) (idx : Nat), (readIndices c idx).1 < c.size ∧ (readIndices c idx).2 < c.size)
    ∧ ∀ (c : Config) (ci : F32), 2 ≤ c.log2N → c.log2N ≤ 23 → inRange c.log2N ci = true →
        (readIndices c (splitPhase c.log2N ci).1).1 = ⌊val ci⌋.toNat
          ∧ (⌊val ci⌋.toNat < c.size - 1 →
              (readIndices c (splitPhase c.log2N ci).1).2 = ⌊val ci⌋.toNat + 1)
          ∧ (⌊val ci⌋.toNat = c.size - 1 → (readIndices c (splitPhase c.log2N ci).1).2 = 0)

/-- NEXT in contract (rules R105 to R109): it completes, answers the interpolation of the two table
words at the floor of the phase by its fraction, advances the phase by `delta` with one conditional
subtraction of `N`, and changes nothing else but a demanded construction. -/
def Obligations.NextAnswersTheInterpolatedSample : Prop :=
  (∀ (j : BitVec 4) (s : State) (o : Osc), osc? s j = some o → o.undef = false →
    inRange 15 o.continuousIndex = true → inRange 15 o.delta = true →
      ∃ (t : State) (a b : F32), exec (.next j) s = .next t
        ∧ a = tableWord Config.hw s o.kind (⌊val o.continuousIndex⌋.toNat)
        ∧ b = tableWord Config.hw s o.kind ((⌊val o.continuousIndex⌋.toNat + 1) % 32768)
        ∧ t.responses = s.responses
            ++ [fadd (fmul (fsub o.continuousIndex (ffloor o.continuousIndex)) (fsub b a)) a]
        ∧ t.oscs = s.oscs.set j.toNat
            { o with
              continuousIndex :=
                if 32768 ≤ val (fadd o.continuousIndex o.delta)
                then fsub (fadd o.continuousIndex o.delta) 0x47000000#32
                else fadd o.continuousIndex o.delta }
        ∧ demanded Config.hw o.kind s t ∧ isBuilt t.built o.kind = true
        ∧ t.freeCount = s.freeCount ∧ sameRest s t)
    ∧ ∀ j : BitVec 4, (encode (.next j)).toNat = j.toNat * 2 ^ 36 + 0x0500000000

/-- Determinism (rule R112), for any parameters: two in-contract NEXT commands on oscillators of equal
kind, `delta` and phase, over equal table words, give the same answer and the same new phase,
whatever else differs. -/
def Obligations.NextDependsOnItsInputsOnly : Prop :=
  ∀ (c : Config) (s₁ s₂ t₁ t₂ : State) (j₁ j₂ : BitVec 4) (o₁ o₂ : Osc),
    osc? s₁ j₁ = some o₁ → osc? s₂ j₂ = some o₂ →
    nextInContract c o₁ = true → nextInContract c o₂ = true →
    o₁.kind = o₂.kind → o₁.delta = o₂.delta → o₁.continuousIndex = o₂.continuousIndex →
    (∀ i < c.size, tableWord c s₁ o₁.kind i = tableWord c s₂ o₂.kind i) →
    execNextWith c j₁ s₁ = .next t₁ → execNextWith c j₂ s₂ = .next t₂ →
      ∃ (y : F32) (u₁ u₂ : Osc),
        t₁.responses = s₁.responses ++ [y] ∧ t₂.responses = s₂.responses ++ [y]
          ∧ osc? t₁ j₁ = some u₁ ∧ osc? t₂ j₂ = some u₂
          ∧ u₁.continuousIndex = u₂.continuousIndex

/-- Fraction zero (rule R110), in both rounding modes: the answer has the value of `a`, and its bits
unless `a` is `-0.0`. -/
def Obligations.ZeroFractionReturnsTheTableWord : Prop :=
  ∀ (mode : LerpMode) (frac a b : F32), units frac = 0 → isFinite frac = true →
    isFinite a = true → isFinite b = true → isFinite (fsub b a) = true →
      val (lerp mode frac a b) = val a ∧ (a ≠ 0x80000000#32 → lerp mode frac a b = a)

/-- Exact phase (rule R111): when phase and increment are whole multiples of `q = 2^(L-23)`, the phase
after `n` advances is exactly `(phase + n * increment) mod N`, and after a whole number of table
traversals it is the starting phase, bit for bit. -/
def Obligations.ExactPhaseIsPeriodic : Prop :=
  ∀ (L : Nat) (ci d : F32) (a b : Nat), 2 ≤ L → L ≤ 23 →
    inRange L ci = true → inRange L d = true →
    val ci * 2 ^ (23 - L) = a → val d * 2 ^ (23 - L) = b →
      (∀ n : Nat, val ((fun x => advance L x d)^[n] ci) * 2 ^ (23 - L)
          = (((a + n * b) % 2 ^ 23 : Nat) : ℚ))
        ∧ (signBit ci = false → ∀ m : Nat, 2 ^ 23 ∣ m * b →
            (fun x => advance L x d)^[m] ci = ci)

/-! ### Oscillator control (41_oscillator_control.md) -/

/-- SETWT (rule R91): it selects the kind, building that table if it is unbuilt, and changes neither the
phase nor any other register. That it does so on an undefined oscillator too is entry U5's reading
against item 2 of rule R143 (log entry 4). -/
def Obligations.SetwtSelectsTheTable : Prop :=
  (∀ (j : BitVec 4) (k : Kind) (s : State) (o : Osc), osc? s j = some o →
    ∃ t, exec (.setwt j k) s = .next t
      ∧ t.oscs = s.oscs.set j.toNat { o with kind := k }
      ∧ demanded Config.hw k s t ∧ isBuilt t.built k = true
      ∧ t.responses = s.responses ∧ t.freeCount = s.freeCount ∧ sameRest s t)
    ∧ ∀ (j : BitVec 4) (k : Kind),
        (encode (.setwt j k)).toNat = j.toNat * 2 ^ 36 + 0x0200000000 + kindCode k

/-- SETSR in contract (rules R90, R92): it stores the rate as given and recomputes `delta` from the
stored frequency; the whole next state is given. -/
def Obligations.SetsrStoresTheRate : Prop :=
  (∀ (j : BitVec 4) (fval : F32) (s : State) (o : Osc), osc? s j = some o → o.undef = false →
    isPos fval = true →
      exec (.setsr j fval) s = .next
        { s with
          oscs := s.oscs.set j.toNat
            { o with
              sampleRate := fval
              delta := fdiv (fmul o.frequency 0x47000000#32) fval } })
    ∧ (∀ (j : BitVec 4) (fval : F32),
        (encode (.setsr j fval)).toNat = j.toNat * 2 ^ 36 + 0x0300000000 + fval.toNat)
    ∧ fdiv (fmul 0x43DC0000#32 0x47000000#32) 0x473B8000#32 = 0x43962FC9#32

/-- SETFQ in contract (rules R90, R93): it stores the frequency as given and recomputes `delta` from the
stored rate; the whole next state is given. -/
def Obligations.SetfqStoresTheFrequency : Prop :=
  (∀ (j : BitVec 4) (fval : F32) (s : State) (o : Osc), osc? s j = some o → o.undef = false →
    isPos fval = true →
      exec (.setfq j fval) s = .next
        { s with
          oscs := s.oscs.set j.toNat
            { o with
              frequency := fval
              delta := fdiv (fmul fval 0x47000000#32) o.sampleRate } })
    ∧ (∀ (j : BitVec 4) (fval : F32),
        (encode (.setfq j fval)).toNat = j.toNat * 2 ^ 36 + 0x0400000000 + fval.toNat)
    ∧ fdiv (fmul 0x445C0000#32 0x47000000#32) 0x473B8000#32 = 0x44162FC9#32

/-- OSCRST (rule R94): the five registers of the oscillator take their creation values, an
out-of-contract condition ends, and nothing else changes. -/
def Obligations.OscrstRecreatesTheOscillator : Prop :=
  (∀ (j : BitVec 4) (s : State) (o : Osc), osc? s j = some o →
    exec (.oscrst j) s = .next
      { s with
        oscs := s.oscs.set j.toNat
          ⟨.sine, 0x43DC0000#32, 0x472C4400#32, 0x43A377EE#32, 0x00000000#32, false⟩ })
    ∧ ∀ j : BitVec 4, (encode (.oscrst j)).toNat = j.toNat * 2 ^ 36 + 0x0800000000

/-- RDREG of an oscillator that is not undefined (rules R21, R95): one response, the register's word,
and no other change. -/
def Obligations.RdregAnswersTheRegister : Prop :=
  (∀ (j : BitVec 4) (r : Reg) (s : State) (o : Osc), osc? s j = some o → o.undef = false →
    ∃ w : F32, exec (.rdreg j r) s = .next { s with responses := s.responses ++ [w] }
      ∧ (r = .kind → w.toNat = kindCode o.kind)
      ∧ (r = .freq → w = o.frequency) ∧ (r = .rate → w = o.sampleRate)
      ∧ (r = .delta → w = o.delta) ∧ (r = .phase → w = o.continuousIndex)
      ∧ (r = .built → w.toNat = (if s.built.sine then 1 else 0) + (if s.built.triangle then 2 else 0)
          + (if s.built.saw then 4 else 0) + (if s.built.square then 8 else 0)
          + (if s.built.noise then 16 else 0))
      ∧ (r = .geom → w = 0x0000010F#32))
    ∧ ∀ (j : BitVec 4) (r : Reg),
        (encode (.rdreg j r)).toNat = j.toNat * 2 ^ 36 + 0x0700000000 + (regNumber r).toNat

/-- Register BUILT (rule R22): its bits, its value after WARMUP, and that a bit that is set stays set. -/
def Obligations.BuiltRegisterFollowsTheFlags : Prop :=
  (∀ b : Built, (builtWord b).getLsbD 0 = b.sine ∧ (builtWord b).getLsbD 1 = b.triangle
      ∧ (builtWord b).getLsbD 2 = b.saw ∧ (builtWord b).getLsbD 3 = b.square
      ∧ (builtWord b).getLsbD 4 = b.noise ∧ (builtWord b) >>> 5 = 0#32)
    ∧ builtWord State.reset.built = 0x00000000#32
    ∧ (∀ s t : State, exec .warmup s = .next t → builtWord t.built = 0x0000001F#32)
    ∧ (∀ (i : Instr) (s t : State) (n : Nat), exec i s = .next t →
        (builtWord s.built).getLsbD n = true → (builtWord t.built).getLsbD n = true)
    ∧ (∀ (j : BitVec 4) (s : State) (o : Osc), osc? s j = some o →
        exec (.rdreg j .built) s
          = .next { s with responses := s.responses ++ [builtWord s.built] })

/-- Register GEOM (rule R23): its fields for every legal parameter, and its value on this hardware,
which RDREG answers whatever oscillator is named. -/
def Obligations.GeomRegisterReportsTheParameters : Prop :=
  (∀ c : Config, c.log2N ≤ 23 → 1 ≤ c.numOsc → c.numOsc ≤ 16 →
      ((geomWord c).extractLsb' 0 5).toNat = c.log2N ∧ (geomWord c).extractLsb' 5 3 = 0
        ∧ ((geomWord c).extractLsb' 8 5).toNat = c.numOsc ∧ (geomWord c).extractLsb' 13 19 = 0)
    ∧ (∀ (j : BitVec 4) (s : State) (o : Osc), osc? s j = some o →
        exec (.rdreg j .geom) s = .next { s with responses := s.responses ++ [0x0000010F#32] })

/-! ### The contract (60_exceptions.md) -/

/-- SETSR, SETFQ and NEXT out of contract (rules R141, R143): the command completes; the oscillator is
undefined and keeps its kind; every other oscillator and every built table stays; the setters build
nothing; NEXT builds the selected table and no other, if it is unbuilt, which R143 allows and does not
demand (the model's choice, log entry 4); and the response stream grows by one word for NEXT and by none
for the setters. -/
def Obligations.OutOfContractCommandsAreBounded : Prop :=
  ∀ (i : Instr) (j : BitVec 4) (s : State) (o : Osc), osc? s j = some o →
    ((∃ f, i = .setsr j f ∧ (o.undef = true ∨ isPos f = false))
      ∨ (∃ f, i = .setfq j f ∧ (o.undef = true ∨ isPos f = false))
      ∨ (i = .next j ∧ (o.undef = true ∨ inRange 15 o.delta = false
          ∨ inRange 15 o.continuousIndex = false))) →
    ∃ (t : State) (u : Osc), exec i s = .next t
      ∧ osc? t j = some u ∧ u.undef = true ∧ u.kind = o.kind
      ∧ t.oscs.length = s.oscs.length ∧ (∀ j' : BitVec 4, j' ≠ j → osc? t j' = osc? s j')
      ∧ (i ≠ .next j → sameTables s t ∧ t.responses = s.responses)
      ∧ (i = .next j → demanded Config.hw o.kind s t
          ∧ ∃ y : F32, t.responses = s.responses ++ [y])
      ∧ sameRest s t

/-- RDREG of an undefined oscillator (rules R95 and R143, item 1; entry U5): exactly one response, KIND,
BUILT and GEOM as defined, and no flag or table word changes. That the registers R143 promises nothing
of do not change either is the model's reading with R95 (log entry 4). -/
def Obligations.RdregOfAnUndefinedOscillator : Prop :=
  ∀ (j : BitVec 4) (r : Reg) (s : State) (o : Osc), osc? s j = some o → o.undef = true →
    ∃ (t : State) (w : F32), exec (.rdreg j r) s = .next t ∧ t.responses = s.responses ++ [w]
      ∧ (r = .kind → w.toNat = kindCode o.kind) ∧ (r = .built → w = builtWord s.built)
      ∧ (r = .geom → w = 0x0000010F#32)
      ∧ t.oscs = s.oscs ∧ sameTables s t ∧ sameRest s t

/-- No command but OSCRST of that oscillator ends an undefined condition (rule R143: "A later in-contract
SETSR or SETFQ does not end the condition"). -/
def Obligations.OnlyOscrstEndsAnUndefinedCondition : Prop :=
  ∀ (i : Instr) (j : BitVec 4) (s t : State) (o : Osc), osc? s j = some o → o.undef = true →
    exec i s = .next t → i ≠ .oscrst j → ∃ u, osc? t j = some u ∧ u.undef = true

/-- A command makes an oscillator undefined only out of contract (rule R141): P1 or P2 for a setter, P3
or P4 for NEXT, and only the oscillator it addresses. -/
def Obligations.OnlyOutOfContractMakesUndefined : Prop :=
  ∀ (i : Instr) (j : BitVec 4) (s t : State) (o u : Osc), osc? s j = some o → o.undef = false →
    exec i s = .next t → osc? t j = some u → u.undef = true →
      (∃ f, (i = .setsr j f ∨ i = .setfq j f) ∧ isPos f = false)
        ∨ (i = .next j ∧ (inRange 15 o.delta = false ∨ inRange 15 o.continuousIndex = false))

/-- No command ends in a fault, in whatever state (rules R44, R140): "there is no bounds fault". -/
def Obligations.NoCommandFaults : Prop :=
  ∀ (i : Instr) (s : State) (f : Fault), exec i s ≠ .fault f

/-- Every well-formed command completes in every state that has this hardware's one oscillator, in or
out of contract (rules R96, R143 item 1, R172). -/
def Obligations.EveryWellFormedCommandCompletes : Prop :=
  ∀ (i : Instr) (s : State), wellFormed i = true → s.oscs.length = 1 → ∃ t, exec i s = .next t

/-- Responses (rules R39, R54): an answering command appends exactly one word to the stream, another
command none, and no word already emitted changes. -/
def Obligations.OneResponsePerAnsweringCommand : Prop :=
  ∀ (i : Instr) (s t : State), exec i s = .next t →
    (answers i = true → ∃ w, t.responses = s.responses ++ [w])
      ∧ (answers i = false → t.responses = s.responses)

/-! ### Who may write what -/

/-- Isolation (rules R11, R26), for any number of oscillators: a command to oscillator `j` changes no
register of another, nor its undefined mark. -/
def Obligations.OtherOscillatorsAreUntouched : Prop :=
  ∀ (c : Config) (j j' : BitVec 4) (s t : State), j' ≠ j →
    ((∃ k, execSetwtWith c j k s = .next t) ∨ (∃ f, execSetsrWith c j f s = .next t)
      ∨ (∃ f, execSetfqWith c j f s = .next t) ∨ execNextWith c j s = .next t
      ∨ (∃ r, execRdregWith c j r s = .next t) ∨ execOscrstWith c j s = .next t
      ∨ execWarmupWith c s = .next t ∨ (∃ k index, execTabrdWith c k index s = .next t)) →
    osc? t j' = osc? s j'

/-- Who writes which register (rules R12 to R15, R21): on an oscillator that is and stays defined, the
kind is written only by SETWT, the frequency only by SETFQ, the rate only by SETSR, `delta` only by
the two setters, the phase only by NEXT, and each also by OSCRST. -/
def Obligations.RegistersHaveTheirListedWriters : Prop :=
  ∀ (i : Instr) (j : BitVec 4) (s t : State) (o u : Osc), exec i s = .next t →
    osc? s j = some o → osc? t j = some u → o.undef = false → u.undef = false →
      (u.kind ≠ o.kind → (∃ k, i = .setwt j k) ∨ i = .oscrst j)
        ∧ (u.frequency ≠ o.frequency → (∃ f, i = .setfq j f) ∨ i = .oscrst j)
        ∧ (u.sampleRate ≠ o.sampleRate → (∃ f, i = .setsr j f) ∨ i = .oscrst j)
        ∧ (u.delta ≠ o.delta → (∃ f, i = .setsr j f ∨ i = .setfq j f) ∨ i = .oscrst j)
        ∧ (u.continuousIndex ≠ o.continuousIndex → i = .next j ∨ i = .oscrst j)

/-! ### The parameters (rule R4) -/

/-- The column "this hardware" of rule R4 is legal: every parameter is in its range, `SIN_ROM` is within
`SIN_EPS` of the sine (rule R74, entry U8; the value of `SIN_EPS` is the model's choice, log entry 7),
every draw of `NOISE_ROM` meets clause (a) of rule R78, and the first NEXT is in contract (rule R162). -/
def Obligations.HardwareParametersAreLegal : Prop := Legal Config.hw
end

