-- ==== Sys2Proof/Laws/Encoding.lean ====
section
/-! SUPPORT. The fields of a command word that is put together from its fields, and the code tables
read back. -/

namespace Sys2Proof

theorem toNat_cmdWord (j op : BitVec 4) (arg : BitVec 32) :
    (cmdWord j op arg).toNat = j.toNat * 2 ^ 36 + op.toNat * 2 ^ 32 + arg.toNat := by
  have ho := op.isLt
  have ha := arg.isLt
  unfold cmdWord
  rw [BitVec.toNat_append, BitVec.toNat_append, ← Nat.shiftLeft_add_eq_or_of_lt ha,
    ← Nat.shiftLeft_add_eq_or_of_lt ho, Nat.shiftLeft_eq, Nat.shiftLeft_eq]
  omega

@[simp] theorem oscField_cmdWord (j op : BitVec 4) (arg : BitVec 32) :
    oscField (cmdWord j op arg) = j := by
  have := j.isLt; have := op.isLt; have := arg.isLt
  apply BitVec.eq_of_toNat_eq
  simp only [oscField, BitVec.extractLsb'_toNat, toNat_cmdWord, Nat.shiftRight_eq_div_pow]
  omega

@[simp] theorem opField_cmdWord (j op : BitVec 4) (arg : BitVec 32) :
    opField (cmdWord j op arg) = op := by
  have := j.isLt; have := op.isLt; have := arg.isLt
  apply BitVec.eq_of_toNat_eq
  simp only [opField, BitVec.extractLsb'_toNat, toNat_cmdWord, Nat.shiftRight_eq_div_pow]
  omega

@[simp] theorem argField_cmdWord (j op : BitVec 4) (arg : BitVec 32) :
    argField (cmdWord j op arg) = arg := by
  have := j.isLt; have := op.isLt; have := arg.isLt
  apply BitVec.eq_of_toNat_eq
  simp only [argField, BitVec.extractLsb'_toNat, toNat_cmdWord, Nat.shiftRight_eq_div_pow]
  omega

/-- A command word is put together from its own fields. -/
theorem cmdWord_fields (w : CmdWord) : cmdWord (oscField w) (opField w) (argField w) = w := by
  have := w.isLt
  apply BitVec.eq_of_toNat_eq
  simp only [toNat_cmdWord, oscField, opField, argField, BitVec.extractLsb'_toNat,
    Nat.shiftRight_eq_div_pow]
  omega

@[simp] theorem kindOfCode_kindBits (k : Kind) : kindOfCode (kindBits k) = some k := by
  cases k <;> decide

@[simp] theorem regOfNumber_regNumber (r : Reg) : regOfNumber (regNumber r) = some r := by
  cases r <;> decide

theorem kindBits_of_kindOfCode {b : BitVec 3} {k : Kind} (h : kindOfCode b = some k) :
    kindBits k = b := by
  revert h; revert b; cases k <;> decide

theorem regNumber_of_regOfNumber {b : BitVec 4} {r : Reg} (h : regOfNumber b = some r) :
    regNumber r = b := by
  revert h; revert b; cases r <;> decide

theorem toNat_kindBits (k : Kind) : (kindBits k).toNat = kindCode k := by cases k <;> decide

/-! ### The checks -/

theorem needZero_ok {n : Nat} {b : BitVec n} {rest : Except Reserved Instr} {i : Instr} :
    needZero b rest = .ok i ↔ b = 0#n ∧ rest = .ok i := by
  unfold needZero; split <;> simp_all

theorem needBlock_ok {w : CmdWord} {rest : Except Reserved Instr} {i : Instr} :
    needBlock w rest = .ok i ↔ oscField w = 0#4 ∧ rest = .ok i := by
  unfold needBlock; split <;> simp_all

theorem needOsc_ok {c : Config} {w : CmdWord} {rest : BitVec 4 → Except Reserved Instr} {i : Instr} :
    needOsc c w rest = .ok i ↔ oscOk c (oscField w) = true ∧ rest (oscField w) = .ok i := by
  unfold needOsc; split <;> simp_all

theorem needIndex_ok {c : Config} {x : BitVec 24} {rest : Except Reserved Instr} {i : Instr} :
    needIndex c x rest = .ok i ↔ indexOk c x = true ∧ rest = .ok i := by
  unfold needIndex; split <;> simp_all

theorem needKind_ok {b : BitVec 3} {rest : Kind → Except Reserved Instr} {i : Instr} :
    needKind b rest = .ok i ↔ ∃ k, kindOfCode b = some k ∧ rest k = .ok i := by
  unfold needKind; split <;> simp_all

theorem needReg_ok {b : BitVec 4} {rest : Reg → Except Reserved Instr} {i : Instr} :
    needReg b rest = .ok i ↔ ∃ r, regOfNumber b = some r ∧ rest r = .ok i := by
  unfold needReg; split <;> simp_all

end Sys2Proof
end

