-- ==== Sys2Proof/Laws/State.lean ====
section
/-! SUPPORT. One lemma per field per state update, so that no proof unfolds a record update. -/

namespace Sys2Proof.Machine

variable (c : Config) (s : State) (j : BitVec 4) (o : Osc) (w : F32) (k : Kind) (n : Nat)

/-! ### spendFree -/
@[simp] theorem spendFree_oscs : (spendFree n s).oscs = s.oscs := rfl
@[simp] theorem spendFree_built : (spendFree n s).built = s.built := rfl
@[simp] theorem spendFree_tab : (spendFree n s).tab = s.tab := rfl
@[simp] theorem spendFree_noiseDraw : (spendFree n s).noiseDraw = s.noiseDraw := rfl
@[simp] theorem spendFree_events : (spendFree n s).events = s.events := rfl
@[simp] theorem spendFree_responses : (spendFree n s).responses = s.responses := rfl
@[simp] theorem spendFree_freeCount : (spendFree n s).freeCount = s.freeCount + n := rfl

/-! ### setOsc -/
@[simp] theorem setOsc_oscs : (setOsc j o s).oscs = s.oscs.set j.toNat o := rfl
@[simp] theorem setOsc_built : (setOsc j o s).built = s.built := rfl
@[simp] theorem setOsc_tab : (setOsc j o s).tab = s.tab := rfl
@[simp] theorem setOsc_noiseDraw : (setOsc j o s).noiseDraw = s.noiseDraw := rfl
@[simp] theorem setOsc_events : (setOsc j o s).events = s.events := rfl
@[simp] theorem setOsc_responses : (setOsc j o s).responses = s.responses := rfl
@[simp] theorem setOsc_freeCount : (setOsc j o s).freeCount = s.freeCount := rfl

/-! ### respond -/
@[simp] theorem respond_oscs : (respond w s).oscs = s.oscs := rfl
@[simp] theorem respond_built : (respond w s).built = s.built := rfl
@[simp] theorem respond_tab : (respond w s).tab = s.tab := rfl
@[simp] theorem respond_noiseDraw : (respond w s).noiseDraw = s.noiseDraw := rfl
@[simp] theorem respond_events : (respond w s).events = s.events := rfl
@[simp] theorem respond_responses : (respond w s).responses = s.responses ++ [w] := rfl
@[simp] theorem respond_freeCount : (respond w s).freeCount = s.freeCount := rfl

/-! ### memWrite -/
@[simp] theorem memWrite_oscs : (memWrite n w s).oscs = s.oscs := rfl
@[simp] theorem memWrite_built : (memWrite n w s).built = s.built := rfl
@[simp] theorem memWrite_tab : (memWrite n w s).tab = putWord s.tab n w := rfl
@[simp] theorem memWrite_noiseDraw : (memWrite n w s).noiseDraw = s.noiseDraw := rfl
@[simp] theorem memWrite_events : (memWrite n w s).events = s.events := rfl
@[simp] theorem memWrite_responses : (memWrite n w s).responses = s.responses := rfl
@[simp] theorem memWrite_freeCount : (memWrite n w s).freeCount = s.freeCount := rfl

/-! ### build -/
@[simp] theorem build_oscs : (build c k s).oscs = s.oscs := rfl
@[simp] theorem build_built : (build c k s).built = setBuilt s.built k := rfl
@[simp] theorem build_tab :
    (build c k s).tab = putTable s.tab (tableAddr c k 0) c.size (rom c s.noiseDraw k) := rfl
@[simp] theorem build_noiseDraw : (build c k s).noiseDraw = s.noiseDraw := rfl
@[simp] theorem build_events : (build c k s).events = s.events := rfl
@[simp] theorem build_responses : (build c k s).responses = s.responses := rfl
@[simp] theorem build_freeCount : (build c k s).freeCount = s.freeCount := rfl

/-! ### getTable -/
@[simp] theorem getTable_oscs : (getTable c k s).oscs = s.oscs := by unfold getTable; split <;> rfl
@[simp] theorem getTable_noiseDraw : (getTable c k s).noiseDraw = s.noiseDraw := by
  unfold getTable; split <;> rfl
@[simp] theorem getTable_events : (getTable c k s).events = s.events := by
  unfold getTable; split <;> rfl
@[simp] theorem getTable_responses : (getTable c k s).responses = s.responses := by
  unfold getTable; split <;> rfl
@[simp] theorem getTable_freeCount : (getTable c k s).freeCount = s.freeCount := by
  unfold getTable; split <;> rfl

/-! ### undefine -/
@[simp] theorem undefine_oscs :
    (undefine j o s).oscs = s.oscs.set j.toNat
      { o with
        frequency := freeAt s 0
        sampleRate := freeAt s 1
        delta := freeAt s 2
        continuousIndex := freeAt s 3
        undef := true } := rfl
@[simp] theorem undefine_built : (undefine j o s).built = s.built := rfl
@[simp] theorem undefine_tab : (undefine j o s).tab = s.tab := rfl
@[simp] theorem undefine_noiseDraw : (undefine j o s).noiseDraw = s.noiseDraw := rfl
@[simp] theorem undefine_events : (undefine j o s).events = s.events := rfl
@[simp] theorem undefine_responses : (undefine j o s).responses = s.responses := rfl
@[simp] theorem undefine_freeCount : (undefine j o s).freeCount = s.freeCount + 4 := rfl

/-! ### recreate -/
@[simp] theorem recreate_oscs :
    (recreate c j s).oscs = s.oscs.set j.toNat (Osc.created c) := rfl
@[simp] theorem recreate_built : (recreate c j s).built = s.built := rfl
@[simp] theorem recreate_tab : (recreate c j s).tab = s.tab := rfl
@[simp] theorem recreate_noiseDraw : (recreate c j s).noiseDraw = s.noiseDraw := rfl
@[simp] theorem recreate_events : (recreate c j s).events = s.events := rfl
@[simp] theorem recreate_responses : (recreate c j s).responses = s.responses := rfl
@[simp] theorem recreate_freeCount : (recreate c j s).freeCount = s.freeCount := rfl

/-! ### takeEvent and issueFirst -/
variable (es : List HostEvent) (cw : CmdWord)
@[simp] theorem takeEvent_oscs : (takeEvent es s).oscs = s.oscs := rfl
@[simp] theorem takeEvent_built : (takeEvent es s).built = s.built := rfl
@[simp] theorem takeEvent_tab : (takeEvent es s).tab = s.tab := rfl
@[simp] theorem takeEvent_noiseDraw : (takeEvent es s).noiseDraw = s.noiseDraw := rfl
@[simp] theorem takeEvent_events : (takeEvent es s).events = es := rfl
@[simp] theorem takeEvent_responses : (takeEvent es s).responses = s.responses := rfl
@[simp] theorem takeEvent_freeCount : (takeEvent es s).freeCount = s.freeCount := rfl
@[simp] theorem issueFirst_events : (issueFirst cw s).events = .cmd cw :: s.events := rfl
@[simp] theorem takeEvent_issueFirst : takeEvent s.events (issueFirst cw s) = s := rfl

/-! ### hardReset -/
@[simp] theorem hardReset_oscs :
    (hardReset c s).oscs = List.replicate c.numOsc (Osc.created c) := rfl
@[simp] theorem hardReset_built : (hardReset c s).built = Built.none := rfl
@[simp] theorem hardReset_tab : (hardReset c s).tab = [] := rfl
@[simp] theorem hardReset_noiseDraw : (hardReset c s).noiseDraw = s.noiseDraw + 1 := rfl
@[simp] theorem hardReset_events : (hardReset c s).events = s.events := rfl
@[simp] theorem hardReset_responses : (hardReset c s).responses = [] := rfl
@[simp] theorem hardReset_freeCount : (hardReset c s).freeCount = s.freeCount := rfl

/-! ### This hardware's parameters -/
@[simp] theorem hw_log2N : Config.hw.log2N = 15 := rfl
@[simp] theorem hw_numOsc : Config.hw.numOsc = 1 := rfl
@[simp] theorem hw_lerpMode : Config.hw.lerpMode = .unfused := rfl
@[simp] theorem hw_size : Config.hw.size = 32768 := rfl
@[simp] theorem hw_half : Config.hw.half = 16384 := rfl
@[simp] theorem hw_mask : Config.hw.mask = 32767 := rfl

end Sys2Proof.Machine
end

