-- ==== Sys2Proof/Laws/Memory.lean ====
section
/-! SUPPORT. The laws of the table memory: what a read gives after a write, and that every operation
keeps the canonical form. -/

namespace Sys2Proof.Machine

/-! ### Single words -/

theorem listedWord_putWord_same (m : Memory) (a : Nat) (v : F32) :
    listedWord (putWord m a v) a = some v := by
  induction m with
  | nil => simp [putWord, listedWord]
  | cons x m ih =>
    obtain ⟨b, w⟩ := x
    by_cases h1 : a < b
    · simp [putWord, listedWord, h1]
    · by_cases h2 : a = b
      · simp [putWord, listedWord, h2]
      · simp [putWord, listedWord, h1, h2, ih]

theorem listedWord_putWord_other (m : Memory) {a b : Nat} (v : F32) (h : a ≠ b) :
    listedWord (putWord m b v) a = listedWord m a := by
  induction m with
  | nil => simp [putWord, listedWord, h]
  | cons x m ih =>
    obtain ⟨d, w⟩ := x
    by_cases h1 : b < d
    · simp [putWord, listedWord, h1, h]
    · by_cases h2 : b = d
      · subst h2; simp [putWord, listedWord, h]
      · simp [putWord, listedWord, h1, h2, ih]

theorem mem_putWord {m : Memory} {a : Nat} {v : F32} {x : Nat × F32} (h : x ∈ putWord m a v) :
    x = (a, v) ∨ x ∈ m := by
  induction m with
  | nil => simpa [putWord] using h
  | cons y m ih =>
    obtain ⟨b, w⟩ := y
    simp only [putWord] at h
    split at h
    · simpa using h
    · split at h
      · rcases List.mem_cons.1 h with h | h
        · exact .inl h
        · exact .inr (List.mem_cons_of_mem _ h)
      · rcases List.mem_cons.1 h with h | h
        · exact .inr (h ▸ List.mem_cons_self)
        · exact (ih h).imp id (List.mem_cons_of_mem _)

theorem putWord_wf {m : Memory} (h : Memory.wf m) (a : Nat) (v : F32) :
    Memory.wf (putWord m a v) := by
  induction m with
  | nil => simp [putWord, Memory.wf]
  | cons y m ih =>
    obtain ⟨b, w⟩ := y
    obtain ⟨hy, hm⟩ := List.pairwise_cons.1 h
    simp only [putWord]
    split
    · rename_i hab
      refine List.pairwise_cons.2 ⟨fun x hx => ?_, h⟩
      rcases List.mem_cons.1 hx with rfl | hx
      · exact hab
      · exact lt_trans hab (hy x hx)
    · split
      · rename_i hab
        exact List.pairwise_cons.2 ⟨fun x hx => by have := hy x hx; simp_all, hm⟩
      · refine List.pairwise_cons.2 ⟨fun x hx => ?_, ih hm⟩
        rcases mem_putWord hx with rfl | hx
        · show b < a; omega
        · exact hy x hx

/-! ### Searching -/

theorem listedWord_append (m n : Memory) (a : Nat) :
    listedWord (m ++ n) a = (listedWord m a).or (listedWord n a) := by
  induction m with
  | nil => simp [listedWord]
  | cons x m ih =>
    obtain ⟨b, w⟩ := x
    by_cases h : a = b <;> simp [listedWord, h, ih]

theorem listedWord_eq_none {m : Memory} {a : Nat} (h : ∀ x ∈ m, x.1 ≠ a) : listedWord m a = none := by
  induction m with
  | nil => rfl
  | cons x m ih =>
    obtain ⟨b, w⟩ := x
    have hb : a ≠ b := fun e => h (b, w) List.mem_cons_self e.symm
    simp only [listedWord, hb, if_false]
    exact ih fun y hy => h y (List.mem_cons_of_mem _ hy)

theorem listedWord_filter (m : Memory) (p : Nat → Bool) (a : Nat) :
    listedWord (m.filter fun x => p x.1) a = if p a then listedWord m a else none := by
  induction m with
  | nil => simp [listedWord]
  | cons x m ih =>
    obtain ⟨b, w⟩ := x
    by_cases hb : p b
    · by_cases h : a = b
      · simp [listedWord, h, hb]
      · simp [listedWord, h, hb, ih]
    · by_cases h : a = b
      · subst h
        simp only [Bool.not_eq_true] at hb
        simpa [List.filter, hb] using ih
      · simp only [Bool.not_eq_true] at hb
        simp [List.filter, listedWord, h, hb, ih]

/-! ### A table's cells -/

theorem mem_tableCells {base len : Nat} {f : Nat → F32} {n : Nat} (hn : n ≤ len) {x : Nat × F32}
    (h : x ∈ tableCells base len f n) : base + (len - n) ≤ x.1 ∧ x.1 < base + len := by
  induction n with
  | zero => simp [tableCells] at h
  | succ n ih =>
    rcases List.mem_cons.1 h with rfl | h
    · exact ⟨le_refl _, show base + (len - (n + 1)) < base + len by omega⟩
    · have := ih (by omega) h; omega

theorem tableCells_wf (base len : Nat) (f : Nat → F32) {n : Nat} (hn : n ≤ len) :
    Memory.wf (tableCells base len f n) := by
  induction n with
  | zero => exact List.Pairwise.nil
  | succ n ih =>
    refine List.pairwise_cons.2 ⟨fun x hx => ?_, ih (by omega)⟩
    have := mem_tableCells (by omega) hx
    show base + (len - (n + 1)) < x.1
    omega

theorem listedWord_tableCells (base len : Nat) (f : Nat → F32) {n i : Nat} (hn : n ≤ len)
    (h1 : len - n ≤ i) (h2 : i < len) :
    listedWord (tableCells base len f n) (base + i) = some (f i) := by
  induction n with
  | zero => omega
  | succ n ih =>
    by_cases h : i = len - (n + 1)
    · subst h; simp [tableCells, listedWord]
    · have hne : base + i ≠ base + (len - (n + 1)) := by omega
      simp only [tableCells, listedWord, hne, if_false]
      exact ih (by omega) (by omega)

/-! ### A whole table -/

theorem listedWord_putTable_inside (m : Memory) (base len : Nat) (f : Nat → F32) {i : Nat}
    (h : i < len) : listedWord (putTable m base len f) (base + i) = some (f i) := by
  have h1 : ¬ base + i < base := by omega
  simp only [putTable, listedWord_append, listedWord_filter m (fun b => decide (b < base)), h1,
    decide_false, listedWord_tableCells base len f le_rfl (by omega) h]
  simp

theorem listedWord_putTable_outside (m : Memory) (base len : Nat) (f : Nat → F32) {a : Nat}
    (h : a < base ∨ base + len ≤ a) : listedWord (putTable m base len f) a = listedWord m a := by
  have hc : listedWord (tableCells base len f len) a = none :=
    listedWord_eq_none fun x hx => by have := mem_tableCells le_rfl hx; omega
  simp only [putTable, listedWord_append, listedWord_filter m (fun b => decide (b < base)),
    listedWord_filter m (fun b => decide (base + len ≤ b)), hc]
  rcases h with h | h
  · have h' : ¬ base + len ≤ a := by omega
    simp [h, h']
  · have h' : ¬ a < base := by omega
    simp [h, h']

theorem mem_putTable {m : Memory} {base len : Nat} {f : Nat → F32} {x : Nat × F32}
    (h : x ∈ putTable m base len f) : x ∈ m ∨ (base ≤ x.1 ∧ x.1 < base + len) := by
  simp only [putTable, List.mem_append] at h
  rcases h with (h | h) | h
  · exact .inl (List.mem_filter.1 h).1
  · have := mem_tableCells le_rfl h; exact .inr (by omega)
  · exact .inl (List.mem_filter.1 h).1

theorem putTable_wf {m : Memory} (h : Memory.wf m) (base len : Nat) (f : Nat → F32) :
    Memory.wf (putTable m base len f) := by
  have low : ∀ x ∈ m.filter (fun x => decide (x.1 < base)), x.1 < base := fun x hx => by
    simpa using (List.mem_filter.1 hx).2
  have high : ∀ x ∈ m.filter (fun x => decide (base + len ≤ x.1)), base + len ≤ x.1 := fun x hx => by
    simpa using (List.mem_filter.1 hx).2
  refine List.pairwise_append.2 ⟨List.pairwise_append.2 ⟨h.filter _, tableCells_wf base len f le_rfl,
    fun x hx y hy => ?_⟩, h.filter _, fun x hx y hy => ?_⟩
  · have := low x hx; have := mem_tableCells le_rfl hy; omega
  · have := high y hy
    rcases List.mem_append.1 hx with hx | hx
    · have := low x hx; omega
    · have := mem_tableCells le_rfl hx; omega

/-! ### Reset, and the operations on states -/

theorem reset_tab_wf (c : Config) : Memory.wf (State.resetWith c).tab := List.Pairwise.nil

theorem memWrite_tab_wf {s : State} (h : Memory.wf s.tab) (a : Nat) (v : F32) :
    Memory.wf (memWrite a v s).tab := putWord_wf h a v

theorem build_tab_wf {s : State} (h : Memory.wf s.tab) (c : Config) (k : Kind) :
    Memory.wf (build c k s).tab := putTable_wf h _ _ _

theorem getTable_tab_wf {s : State} (h : Memory.wf s.tab) (c : Config) (k : Kind) :
    Memory.wf (getTable c k s).tab := by
  unfold getTable; split
  · exact h
  · exact build_tab_wf h c k

theorem warmAll_tab_wf {s : State} (h : Memory.wf s.tab) (c : Config) : Memory.wf (warmAll c s).tab := by
  unfold warmAll
  exact List.foldlRecOn allKinds (fun s k => getTable c k s) (motive := fun s => Memory.wf s.tab) h
    fun s hs k _ => getTable_tab_wf hs c k

end Sys2Proof.Machine
end

