-- ==== Sys2Proof/Laws/Numerics.lean ====
section
/-! SUPPORT. The fields of a packed datum, negation, and what the rounding functions can do. -/

namespace Sys2Proof

/-! ### Fields of a packed datum -/

theorem toNat_pack (neg : Bool) {p : Nat} (h : p < 2 ^ 31) :
    (pack neg p).toNat = p + if neg then 2 ^ 31 else 0 := by
  unfold pack
  rw [BitVec.toNat_ofNat]
  split <;> omega

theorem expField_pack (neg : Bool) {p : Nat} (h : p < 2 ^ 31) :
    expField (pack neg p) = p / 2 ^ 23 := by
  unfold expField
  rw [BitVec.extractLsb'_toNat, toNat_pack neg h, Nat.shiftRight_eq_div_pow]
  split <;> omega

theorem fracField_pack (neg : Bool) {p : Nat} (h : p < 2 ^ 31) :
    fracField (pack neg p) = p % 2 ^ 23 := by
  unfold fracField
  rw [BitVec.extractLsb'_toNat, toNat_pack neg h, Nat.shiftRight_eq_div_pow]
  split <;> omega

theorem signBit_pack (neg : Bool) {p : Nat} (h : p < 2 ^ 31) : signBit (pack neg p) = neg := by
  unfold signBit
  rw [BitVec.getLsbD, toNat_pack neg h, Nat.testBit_eq_decide_div_mod_eq]
  cases neg
  · exact decide_eq_false (by rw [if_neg Bool.false_ne_true]; omega)
  · exact decide_eq_true (by rw [if_pos rfl]; omega)

/-- The magnitude of a packed pattern. -/
theorem mag_pack (neg : Bool) {p : Nat} (h : p < 2 ^ 31) :
    mag (pack neg p)
      = if p / 2 ^ 23 = 0 then p % 2 ^ 23 else (2 ^ 23 + p % 2 ^ 23) * 2 ^ (p / 2 ^ 23 - 1) := by
  simp only [mag, expField_pack neg h, fracField_pack neg h]

/-- A pattern below that of the infinity packs to a finite datum. -/
theorem isFinite_pack (neg : Bool) {p : Nat} (h : p < 0x7F800000) : isFinite (pack neg p) = true := by
  have hp : p < 2 ^ 31 := lt_trans h (by decide)
  have : p / 2 ^ 23 ≠ 255 := by omega
  simpa [isFinite, expField_pack neg hp] using this

/-- Every datum is packed from its own fields. -/
theorem pack_fields (x : F32) : pack (signBit x) (expField x * 2 ^ 23 + fracField x) = x := by
  have hlt := x.isLt
  have he : expField x = x.toNat / 2 ^ 23 % 256 := by
    simp [expField, BitVec.extractLsb'_toNat, Nat.shiftRight_eq_div_pow]
  have hf : fracField x = x.toNat % 2 ^ 23 := by
    simp [fracField, BitVec.extractLsb'_toNat, Nat.shiftRight_eq_div_pow]
  have hs : signBit x = decide (x.toNat / 2 ^ 31 % 2 = 1) := by
    rw [signBit, BitVec.getLsbD, Nat.testBit_eq_decide_div_mod_eq]
  apply BitVec.eq_of_toNat_eq
  rw [toNat_pack _ (by omega), he, hf, hs]
  by_cases h : x.toNat / 2 ^ 31 % 2 = 1
  · rw [if_pos (by simpa using h)]; omega
  · rw [if_neg (by simpa using h)]; omega

@[simp] theorem mag_zero (neg : Bool) : mag (zero neg) = 0 := by cases neg <;> decide

@[simp] theorem units_zero (neg : Bool) : units (zero neg) = 0 := by simp [units]

@[simp] theorem isFinite_zero (neg : Bool) : isFinite (zero neg) = true := by cases neg <;> decide

/-! ### Kinds of data -/

theorem isNaN_of_isFinite {x : F32} (h : isFinite x = true) : isNaN x = false := by
  simp_all [isFinite, isNaN]

theorem isInf_of_isFinite {x : F32} (h : isFinite x = true) : isInf x = false := by
  simp_all [isFinite, isInf]

theorem units_eq_zero {x : F32} : units x = 0 ↔ mag x = 0 := by
  unfold units; split <;> omega

theorem natAbs_units (x : F32) : (units x).natAbs = mag x := by
  unfold units; split <;> simp

/-! ### Negation -/

theorem toNat_fneg (x : F32) :
    (fneg x).toNat = if x.toNat < 2 ^ 31 then x.toNat + 2 ^ 31 else x.toNat - 2 ^ 31 := by
  have hx := x.isLt
  have h0 : (0x80000000#32 : BitVec 32).toNat = 2 ^ 31 := by rw [BitVec.toNat_ofNat]; norm_num
  have key : x.toNat ^^^ 2 ^ 31 = (x.toNat + 2 ^ 31) % 2 ^ 32 := by
    apply Nat.eq_of_testBit_eq
    intro i
    rw [Nat.testBit_xor, Nat.testBit_mod_two_pow, Nat.add_comm]
    rcases lt_trichotomy i 31 with hi | rfl | hi
    · rw [Nat.testBit_two_pow_of_ne (by omega), Nat.testBit_two_pow_add_gt hi, Bool.xor_false,
        decide_eq_true (by omega), Bool.true_and]
    · rw [Nat.testBit_two_pow_self, Nat.testBit_two_pow_add_eq, Bool.xor_true,
        decide_eq_true (by omega), Bool.true_and]
    · rw [Nat.testBit_two_pow_of_ne (by omega), decide_eq_false (by omega), Bool.false_and,
        Bool.xor_false]
      exact Nat.testBit_lt_two_pow (lt_of_lt_of_le hx (Nat.pow_le_pow_right (by norm_num) hi))
  unfold fneg
  rw [BitVec.toNat_xor, h0, key]
  split <;> omega

theorem expField_fneg (x : F32) : expField (fneg x) = expField x := by
  have := x.isLt
  simp only [expField, BitVec.extractLsb'_toNat, toNat_fneg, Nat.shiftRight_eq_div_pow]
  split <;> omega

theorem fracField_fneg (x : F32) : fracField (fneg x) = fracField x := by
  have := x.isLt
  simp only [fracField, BitVec.extractLsb'_toNat, toNat_fneg, Nat.shiftRight_eq_div_pow]
  split <;> omega

theorem signBit_fneg (x : F32) : signBit (fneg x) = !signBit x := by
  have := x.isLt
  simp only [signBit, BitVec.getLsbD, Nat.testBit_eq_decide_div_mod_eq, toNat_fneg]
  by_cases h : x.toNat < 2 ^ 31
  · rw [if_pos h, decide_eq_true (by omega), decide_eq_false (by omega)]; rfl
  · rw [if_neg h, decide_eq_false (by omega), decide_eq_true (by omega)]; rfl

theorem mag_fneg (x : F32) : mag (fneg x) = mag x := by
  simp only [mag, expField_fneg, fracField_fneg]

theorem units_fneg (x : F32) : units (fneg x) = -units x := by
  simp only [units, signBit_fneg, mag_fneg]
  cases signBit x <;> simp

theorem isFinite_fneg (x : F32) : isFinite (fneg x) = isFinite x := by
  simp only [isFinite, expField_fneg]

/-! ### Rounding -/

/-- The rounded quotient is within half a unit of the quotient. -/
theorem roundHalfEven_near (n : Nat) {d : Nat} (h : 0 < d) :
    2 * n ≤ 2 * (roundHalfEven n d * d) + d ∧ 2 * (roundHalfEven n d * d) ≤ 2 * n + d := by
  have hdm := Nat.div_add_mod n d
  have hlt := Nat.mod_lt n h
  have hc : d * (n / d) = n / d * d := Nat.mul_comm _ _
  unfold roundHalfEven
  split
  · omega
  · split
    · rw [Nat.add_mul, Nat.one_mul]; omega
    · rcases Nat.mod_two_eq_zero_or_one (n / d) with h2 | h2 <;> rw [h2]
      · rw [Nat.add_zero]; omega
      · rw [Nat.add_mul, Nat.one_mul]; omega

/-- A whole quotient is its own rounding. -/
theorem roundHalfEven_mul (m : Nat) {d : Nat} (h : 0 < d) : roundHalfEven (m * d) d = m := by
  simp [roundHalfEven, Nat.mul_mod_left, Nat.mul_div_cancel m h, h]

theorem roundMag_le (n d : Nat) : roundMag n d ≤ 0x7F800000 := Nat.min_le_right _ _

/-- A magnitude with at most 24 significant bits, in the finite range, is its own rounding. -/
theorem roundMag_exact {m e : Nat} (hm : m < 2 ^ 24) (he : e = 0 ∨ 2 ^ 23 ≤ m) (hmax : e ≤ 253) :
    roundMag (m * 2 ^ e) 1 = e * 2 ^ 23 + m := by
  have hshift : ulpShift (m * 2 ^ e) = e := by
    unfold ulpShift
    rcases he with rfl | hm2
    · rcases Nat.eq_zero_or_pos m with rfl | hpos
      · simp
      · have : Nat.log2 m < 24 := (Nat.log2_lt (by omega)).2 hm
        simp only [Nat.pow_zero, Nat.mul_one]; omega
    · have hne : m * 2 ^ e ≠ 0 := by positivity
      have h1 : 23 + e ≤ Nat.log2 (m * 2 ^ e) := by
        rw [Nat.le_log2 hne, Nat.pow_add]; exact Nat.mul_le_mul_right _ hm2
      have h2 : Nat.log2 (m * 2 ^ e) < 24 + e := by
        rw [Nat.log2_lt hne, Nat.pow_add]; exact Nat.mul_lt_mul_of_pos_right hm (by positivity)
      omega
  unfold roundMag
  rw [Nat.div_one, hshift, Nat.one_mul, roundHalfEven_mul m (by positivity)]
  omega

/-! ### Noise -/

theorem noiseOk_noiseClip (w : F32) : noiseOk (noiseClip w) = true := by
  unfold noiseClip
  split
  · assumption
  · decide

end Sys2Proof
end

