-- ==== Sys2Proof/Laws/Ops.lean ====
section
/-! SUPPORT. What each shared operation can do, said once. -/

namespace Sys2Proof.Machine

/-! ### Kinds and flags -/

theorem kindCode_lt (k : Kind) : kindCode k < 5 := by cases k <;> decide

theorem kindCode_injective {k k' : Kind} (h : kindCode k = kindCode k') : k = k' := by
  cases k <;> cases k' <;> first | rfl | exact absurd h (by decide)

theorem isBuilt_setBuilt (b : Built) (k k' : Kind) :
    isBuilt (setBuilt b k) k' = (isBuilt b k' || decide (k' = k)) := by
  cases k <;> cases k' <;> simp [isBuilt, setBuilt]

@[simp] theorem isBuilt_setBuilt_same (b : Built) (k : Kind) : isBuilt (setBuilt b k) k = true := by
  simp [isBuilt_setBuilt]

@[simp] theorem isBuilt_none (k : Kind) : isBuilt Built.none k = false := by cases k <;> rfl

/-! ### Table addresses (rules R30, R44) -/

theorem size_pos (c : Config) : 0 < c.size := Nat.two_pow_pos _

theorem tableAddr_lt (c : Config) (k : Kind) {i : Nat} (h : i < c.size) :
    tableAddr c k i < tabWords c := by
  have hk : kindCode k ≤ 4 := by have := kindCode_lt k; omega
  have := Nat.mul_le_mul_right c.size hk
  unfold tableAddr tabWords; omega

theorem tableAddr_injective (c : Config) {k k' : Kind} {i i' : Nat} (h : i < c.size)
    (h' : i' < c.size) (e : tableAddr c k i = tableAddr c k' i') : k = k' ∧ i = i' := by
  unfold tableAddr at e
  have hk : kindCode k = kindCode k' := by
    rcases Nat.lt_trichotomy (kindCode k) (kindCode k') with hlt | heq | hgt
    · have := Nat.mul_le_mul_right c.size (Nat.succ_le_of_lt hlt)
      rw [Nat.succ_mul] at this; omega
    · exact heq
    · have := Nat.mul_le_mul_right c.size (Nat.succ_le_of_lt hgt)
      rw [Nat.succ_mul] at this; omega
  refine ⟨kindCode_injective hk, ?_⟩
  rw [hk] at e; omega

theorem tableAddr_add (c : Config) (k : Kind) (i : Nat) :
    tableAddr c k i = tableAddr c k 0 + i := by simp [tableAddr]

theorem tableAddr_outside (c : Config) {k k' : Kind} (hk : k' ≠ k) {i : Nat} (h : i < c.size) :
    tableAddr c k' i < tableAddr c k 0 ∨ tableAddr c k 0 + c.size ≤ tableAddr c k' i := by
  by_contra hc
  push Not at hc
  have he : tableAddr c k' i = tableAddr c k (tableAddr c k' i - tableAddr c k 0) := by
    rw [tableAddr_add c k (tableAddr c k' i - tableAddr c k 0)]; omega
  exact hk (tableAddr_injective c h (by omega) he).1

theorem mask_eq_mod (c : Config) (x : Nat) : x &&& c.mask = x % c.size := by
  unfold Config.mask Config.size; exact Nat.and_two_pow_sub_one_eq_mod x c.log2N

theorem readIndices_lt (c : Config) (idx : Nat) :
    (readIndices c idx).1 < c.size ∧ (readIndices c idx).2 < c.size := by
  simp only [readIndices, mask_eq_mod]
  exact ⟨Nat.mod_lt _ (size_pos c), Nat.mod_lt _ (size_pos c)⟩

/-! ### Reading and building tables -/

theorem memRead_ok (c : Config) (s : State) {a : Nat} (h : a < tabWords c) :
    memRead c s a
      = .ok ((listedWord s.tab a).getD (Config.unspecifiedWord s.noiseDraw a)) := by
  simp [memRead, h]

theorem getTable_of_built {c : Config} {k : Kind} {s : State} (h : isBuilt s.built k = true) :
    getTable c k s = s := by simp [getTable, h]

theorem getTable_of_unbuilt {c : Config} {k : Kind} {s : State} (h : isBuilt s.built k = false) :
    getTable c k s = build c k s := by simp [getTable, h]

theorem build_word_inside (c : Config) (k : Kind) (s : State) {i : Nat} (h : i < c.size) :
    listedWord (build c k s).tab (tableAddr c k i) = some (rom c s.noiseDraw k i) := by
  rw [build_tab, tableAddr_add]; exact listedWord_putTable_inside _ _ _ _ h

theorem build_word_outside (c : Config) (k : Kind) (s : State) {a : Nat}
    (h : a < tableAddr c k 0 ∨ tableAddr c k 0 + c.size ≤ a) :
    listedWord (build c k s).tab a = listedWord s.tab a := by
  rw [build_tab]; exact listedWord_putTable_outside _ _ _ _ h

/-- What `GetTable(k)` can do. -/
theorem getTable_demanded (c : Config) (k : Kind) (s : State) :
    demanded c k s (getTable c k s) := by
  refine ⟨fun h => ?_, fun h => ?_⟩
  · rw [getTable_of_built h]; exact ⟨rfl, rfl⟩
  · rw [getTable_of_unbuilt h]
    exact ⟨rfl, fun i hi => build_word_inside c k s hi, fun a ha => build_word_outside c k s ha⟩

theorem isBuilt_getTable (c : Config) (k k' : Kind) (s : State) :
    isBuilt (getTable c k s).built k' = (isBuilt s.built k' || decide (k' = k)) := by
  cases h : isBuilt s.built k
  · rw [getTable_of_unbuilt h, build_built, isBuilt_setBuilt]
  · rw [getTable_of_built h]
    by_cases hk : k' = k
    · subst hk; simp [h]
    · simp [hk]

/-- `TabRead(k, i)` in range never faults: it answers `tableWord` and leaves what `GetTable(k)` does. -/
theorem tabRead_ok (c : Config) (k : Kind) (s : State) {i : Nat} (h : i < c.size) :
    tabRead c k i s = .ok (tableWord c s k i, getTable c k s) := by
  have hr := memRead_ok c (getTable c k s) (tableAddr_lt c k h)
  unfold tabRead
  rw [hr]
  cases hb : isBuilt s.built k
  · simp [tableWord, hb, getTable_of_unbuilt hb, build_word_inside c k s h, -build_tab]
  · simp [tableWord, hb, getTable_of_built hb]

theorem tableWord_getTable (c : Config) (k : Kind) (s : State) {i : Nat} (h : i < c.size) :
    tableWord c (getTable c k s) k i = tableWord c s k i := by
  cases hb : isBuilt s.built k
  · rw [getTable_of_unbuilt hb]
    simp [tableWord, hb, build_word_inside c k s h, -build_tab]
  · rw [getTable_of_built hb]

/-- In a good state every table word is its ROM. -/
theorem tableWord_of_inv {c : Config} {s : State} (h : Inv c s) (k : Kind) {i : Nat}
    (hi : i < c.size) : tableWord c s k i = rom c s.noiseDraw k i := by
  have := h.tables k i hi
  cases hb : isBuilt s.built k <;> simp [hb] at this <;> simp [tableWord, hb, this]

/-- The flags after WARMUP's loop. -/
theorem isBuilt_warmAll (c : Config) (s : State) (k : Kind) : isBuilt (warmAll c s).built k = true := by
  cases k <;> simp [warmAll, allKinds, isBuilt_getTable]

/-! ### Oscillators -/

theorem onOsc_some {j : BitVec 4} {s : State} {o : Osc} (h : osc? s j = some o)
    (run : Osc → Host.Outcome State Fault Refusal) : onOsc j s run = run o := by simp [onOsc, h]

theorem onOsc_none {j : BitVec 4} {s : State} (h : osc? s j = none)
    (run : Osc → Host.Outcome State Fault Refusal) :
    onOsc j s run = .refused (.reservedCommand .osc) := by simp [onOsc, h]

/-- A next state of a command for oscillator `j` comes from an oscillator that exists. -/
theorem onOsc_next {j : BitVec 4} {s t : State} {run : Osc → Host.Outcome State Fault Refusal}
    (h : onOsc j s run = .next t) : ∃ o, osc? s j = some o ∧ run o = .next t := by
  cases ho : osc? s j with
  | none => simp [onOsc, ho] at h
  | some o => exact ⟨o, rfl, by simpa [onOsc, ho] using h⟩

theorem osc?_lt {j : BitVec 4} {s : State} {o : Osc} (h : osc? s j = some o) :
    j.toNat < s.oscs.length := (List.getElem?_eq_some_iff.1 h).1

/-- Registers of the written oscillator and of the others after a write. -/
theorem osc?_setOsc {j : BitVec 4} {s : State} {o : Osc} (h : osc? s j = some o) (o' : Osc)
    (j' : BitVec 4) : osc? (setOsc j o' s) j' = if j' = j then some o' else osc? s j' := by
  have hlt := osc?_lt h
  unfold osc?
  rw [setOsc_oscs, List.getElem?_set]
  by_cases hj : j' = j
  · subst hj; simp [hlt]
  · have : j.toNat ≠ j'.toNat := fun e => hj (BitVec.eq_of_toNat_eq e.symm)
    simp [hj, this]

/-- The in-contract NEXT never faults, and this is its next state. -/
theorem nextSample_eq (c : Config) (j : BitVec 4) (o : Osc) (s : State) :
    nextSample c j o s
      = .next (respond
          (lerp c.lerpMode (splitPhase c.log2N o.continuousIndex).2
            (tableWord c s o.kind (readIndices c (splitPhase c.log2N o.continuousIndex).1).1)
            (tableWord c s o.kind (readIndices c (splitPhase c.log2N o.continuousIndex).1).2))
          (setOsc j { o with continuousIndex := advance c.log2N o.continuousIndex o.delta }
            (getTable c o.kind s))) := by
  have h := readIndices_lt c (splitPhase c.log2N o.continuousIndex).1
  have hb : isBuilt (getTable c o.kind s).built o.kind = true := by simp [isBuilt_getTable]
  simp only [nextSample, tabRead_ok c o.kind s h.1, tabRead_ok c o.kind (getTable c o.kind s) h.2,
    tableWord_getTable c o.kind s h.2, getTable_of_built hb]

end Sys2Proof.Machine
end

