-- ==== Sys2Proof/Laws/PerInstr.lean ====
section
/-! SUPPORT. The families of statements that are made constructor by constructor. -/

namespace Sys2Proof.Laws

/-- The encoded word of a command matches its row of the opcode map (rule R62). -/
def EncodeMatchesRow.Statement (i : Instr) : Prop :=
  encode i &&& (opcodeRow i).mask = (opcodeRow i).pattern

theorem EncodeMatchesRow.warmup : EncodeMatchesRow.Statement .warmup := by
  unfold EncodeMatchesRow.Statement; decide

theorem EncodeMatchesRow.setwt (osc : BitVec 4) (kind : Kind) :
    EncodeMatchesRow.Statement (.setwt osc kind) := by
  unfold EncodeMatchesRow.Statement
  cases kind <;> revert osc <;> decide

/-- A word's bits above the operand, under a mask that leaves out the operand and `osc`. -/
theorem opBits_of_cmdWord (j op : BitVec 4) (arg : BitVec 32) :
    cmdWord j op arg &&& 0x0F00000000#40 = cmdWord 0#4 op 0#32 := by
  have h : (0x0F00000000#40 : BitVec 40) = (0#4 ++ 15#4 ++ 0#32 : BitVec 40) := by decide
  rw [h]
  unfold cmdWord
  rw [BitVec.and_append, BitVec.and_append]
  have h2 : (15#4 : BitVec 4) = BitVec.allOnes 4 := by decide
  rw [h2, BitVec.and_allOnes, BitVec.and_zero, BitVec.and_zero]

theorem EncodeMatchesRow.setsr (osc : BitVec 4) (fval : F32) :
    EncodeMatchesRow.Statement (.setsr osc fval) := by
  exact opBits_of_cmdWord osc _ fval

theorem EncodeMatchesRow.setfq (osc : BitVec 4) (fval : F32) :
    EncodeMatchesRow.Statement (.setfq osc fval) := by
  exact opBits_of_cmdWord osc _ fval

theorem EncodeMatchesRow.next (osc : BitVec 4) : EncodeMatchesRow.Statement (.next osc) := by
  unfold EncodeMatchesRow.Statement
  revert osc; decide

theorem EncodeMatchesRow.tabrd (kind : Kind) (index : BitVec 24) :
    EncodeMatchesRow.Statement (.tabrd kind index) := by
  unfold EncodeMatchesRow.Statement encode opcodeRow cmdWord
  have h : (0xFF000000F8#40 : BitVec 40) = (15#4 ++ 15#4 ++ (0#24 ++ 31#5 ++ 0#3) : BitVec 40) := by
    decide
  show _ &&& 0xFF000000F8#40 = 0x0600000000#40
  rw [h, BitVec.and_append, BitVec.and_append, BitVec.and_append, BitVec.and_append,
    BitVec.and_zero, BitVec.and_zero]
  decide

theorem EncodeMatchesRow.rdreg (osc : BitVec 4) (reg : Reg) :
    EncodeMatchesRow.Statement (.rdreg osc reg) := by
  unfold EncodeMatchesRow.Statement
  cases reg <;> revert osc <;> decide

theorem EncodeMatchesRow.oscrst (osc : BitVec 4) : EncodeMatchesRow.Statement (.oscrst osc) := by
  unfold EncodeMatchesRow.Statement
  revert osc; decide

end Sys2Proof.Laws
end

