-- ==== Sys2Proof/Tests/Slice0.lean ====
section
/-! SUPPORT. Tests of the model against the worked numbers of spec/95_test_vectors.md and of the rules,
and a witness for the hypotheses of each obligation. -/

namespace Sys2Proof.Tests

open Sys2Proof Sys2Proof.Machine

-- One theorem at a time: many small evaluations at once each take a thread of their own.
set_option Elab.async false

/-! ### WellFormed: an ill-formed term for each check (rule R55, conditions 4 and 6) -/

theorem test_wellFormed_setwt_osc : wellFormed (.setwt 1 .saw) = false := by decide
theorem test_wellFormed_setsr_osc : wellFormed (.setsr 1 0x47000000#32) = false := by decide
theorem test_wellFormed_setfq_osc : wellFormed (.setfq 1 0x47000000#32) = false := by decide
theorem test_wellFormed_next_osc : wellFormed (.next 1) = false := by decide
theorem test_wellFormed_rdreg_osc : wellFormed (.rdreg 1 .geom) = false := by decide
theorem test_wellFormed_oscrst_osc : wellFormed (.oscrst 15) = false := by decide
theorem test_wellFormed_tabrd_index : wellFormed (.tabrd .sine 32768) = false := by decide

/-! ### Decoding: the words of rule R62's patterns, written out bit by bit -/

theorem test_decode_warmup :
    decode 0b0000_0001_00000000_00000000_00000000_00000000#40 = .ok .warmup := by decide
theorem test_decode_setwt :
    decode 0b0000_0010_00000000_00000000_00000000_00000100#40 = .ok (.setwt 0 .noise) := by decide
theorem test_decode_setsr :
    decode 0b0000_0011_01000111_00111011_10000000_00000000#40 = .ok (.setsr 0 0x473B8000#32) := by
  decide
theorem test_decode_setfq :
    decode 0b0000_0100_01000100_01011100_00000000_00000000#40 = .ok (.setfq 0 0x445C0000#32) := by
  decide
theorem test_decode_next :
    decode 0b0000_0101_00000000_00000000_00000000_00000000#40 = .ok (.next 0) := by decide
theorem test_decode_tabrd :
    decode 0b0000_0110_00000000_01000000_00000000_00000011#40 = .ok (.tabrd .square 16384) := by
  decide
theorem test_decode_rdreg :
    decode 0b0000_0111_00000000_00000000_00000000_00000110#40 = .ok (.rdreg 0 .geom) := by decide
theorem test_decode_oscrst :
    decode 0b0000_1000_00000000_00000000_00000000_00000000#40 = .ok (.oscrst 0) := by decide

/-- The reserved words of section 2.1. -/
theorem test_decode_reserved :
    decode 0x0000000000#40 = .error .opcode ∧ decode 0x1100000000#40 = .error .osc
      ∧ decode 0x0100000001#40 = .error .zeroField ∧ decode 0x0200000005#40 = .error .kind
      ∧ decode 0x0200000008#40 = .error .zeroField ∧ decode 0x1500000000#40 = .error .osc
      ∧ decode 0x0600800000#40 = .error .index ∧ decode 0x0600000108#40 = .error .zeroField
      ∧ decode 0x1600000000#40 = .error .osc ∧ decode 0x0700000007#40 = .error .reg
      ∧ decode 0x0700000010#40 = .error .zeroField ∧ decode 0x0900000000#40 = .error .opcode := by
  decide

/-- With two oscillators `NEXT o1` is legal (section 2.1). -/
theorem test_decode_second_oscillator :
    decodeWith { Config.hw with numOsc := 2 } 0x1500000000#40 = .ok (.next 1) := by decide

theorem test_decodeTableWord : decodeTableWord 40 0x0600000504 = some (.tabrd .noise 5) := by decide

/-! ### Numeric primitives (section 2.5) and the phase increment (section 2.3) -/

theorem test_sizeF : i2f 32768 = 0x47000000#32 := by decide +kernel
theorem test_floor_and_fraction :
    ffloor 0x46FFFFFF#32 = 0x46FFFE00#32
      ∧ fsub 0x46FFFFFF#32 0x46FFFE00#32 = 0x3F7F8000#32 := by decide +kernel
theorem test_add_rounds_up : fadd 0x46FFFFFF#32 0x3AC00000#32 = 0x47000000#32 := by decide +kernel
theorem test_add_tie_to_even : fadd 0x46FFFFFF#32 0x3A000000#32 = 0x46FFFFFF#32 := by
  decide +kernel
theorem test_exact_cancellation :
    fadd (fmul 0x3F000000#32 0xB949116D#32) 0x38C9116D#32 = 0x00000000#32 := by decide +kernel
theorem test_lerp_unfused :
    lerp .unfused 0x3F774000#32 0x38C9116D#32 0xB8C9116D#32 = 0xB8BB52BD#32 := by decide +kernel
/-- Rule R123's sign of an exact zero, and an underflow whose sign log entry 16 names. -/
theorem test_fma_zero_signs :
    ffma 0x80000000#32 0x3F800000#32 0x80000000#32 = 0x80000000#32
      ∧ ffma 0x3F800000#32 0x3F800000#32 0xBF800000#32 = 0x00000000#32
      ∧ ffma 0x00000001#32 0xBF000000#32 0x00000000#32 = 0x80000000#32 := by decide +kernel
theorem test_lerp_fused :
    lerp .fused 0x3F774000#32 0x38C9116D#32 0xB8C9116D#32 = 0xB8BB52BC#32 := by decide +kernel
theorem test_delta_largest_in_range : deltaOf 15 0x472C43FF#32 0x472C4400#32 = 0x46FFFFFF#32 := by
  decide +kernel
theorem test_delta_subnormal : deltaOf 15 0x00000001#32 0x472C4400#32 = 0x00000001#32 := by
  decide +kernel
theorem test_delta_underflow : deltaOf 15 0x0DA24260#32 0x7149F2CA#32 = 0x00000000#32 := by
  decide +kernel
theorem test_delta_overflow : deltaOf 15 0x3F800000#32 0x00000001#32 = 0x7F800000#32 := by
  decide +kernel
theorem test_phase_stall : advance 15 0x46800000#32 0x3A42C87A#32 = 0x46800000#32 := by
  decide +kernel
theorem test_phase_largest : advance 15 0x46FFFFFF#32 0x46FFFFFF#32 = 0x46FFFFFE#32 := by
  decide +kernel

/-! ### Table words (rules R74 to R77, section 2.2) -/

theorem test_sine_words :
    sinWord 32767 1 = 0x3949116D#32 ∧ sinWord 32767 8192 = 0x3F800000#32
      ∧ sinWord 32767 16384 = 0xB8C9116D#32 ∧ sinWord 32767 16385 = 0xB996CD11#32
      ∧ sinWord 32767 24577 = 0xBF7FFFFF#32 ∧ sinWord 32767 32767 = 0x00000000#32 := by
  decide +kernel
theorem test_triangle_words :
    triangleWord Config.hw 1201 = 0xBF5A77B5#32 ∧ triangleWord Config.hw 16384 = 0x3F800200#32
      ∧ triangleWord Config.hw 24575 = 0x39200140#32 := by decide +kernel
theorem test_saw_words :
    sawWord Config.hw 8192 = 0x00000000#32 ∧ sawWord Config.hw 16383 = 0x3F7FF800#32
      ∧ sawWord Config.hw 24575 = 0xB9000000#32 := by decide +kernel

/-! ### One step on a small state, per command -/

/-- The reset state with its oscillator on a kind, at a phase and an increment. -/
def playing (k : Kind) (phase delta : F32) : State :=
  { State.reset with
    oscs := [{ Osc.created Config.hw with kind := k, continuousIndex := phase, delta := delta }] }

/-- The responses and the phase after one command word, if the step completes. -/
def answerAndPhase (s : State) (w : Nat) : Option (List F32 × List F32) :=
  match step (s.withFetchWord 40 w) with
  | .next t => some (t.responses, t.oscs.map Osc.continuousIndex)
  | _ => none

/-- Section 2.4, the second NEXT after reset. -/
theorem test_next_general :
    answerAndPhase (playing .sine 0x43A377EE#32 0x43A377EE#32) 0x0500000000
      = some ([0x3D804EC4#32], [0x442377EE#32]) := by decide +kernel

/-- Section 2.4, the small phase with an exact product. -/
theorem test_next_small_phase :
    answerAndPhase (playing .sine 0x3C000000#32 0x3B800000#32) 0x0500000000
      = some ([0x35C9116D#32], [0x3C400000#32]) := by decide +kernel

/-- Section 2.2: the first step of the sine. -/
theorem test_tabrd_sine : (answerAndPhase State.reset 0x0600000100).map Prod.fst
    = some [0x3949116D#32] := by decide +kernel

/-- Section 2.2: the first step of the triangle. -/
theorem test_tabrd_triangle : (answerAndPhase State.reset 0x0600000101).map Prod.fst
    = some [0xBF7FF800#32] := by decide +kernel

/-- Section 2.3: RDREG GEOM and DELTA from reset. -/
theorem test_rdreg_geom : (answerAndPhase State.reset 0x0700000006).map Prod.fst
    = some [0x0000010F#32] := by decide +kernel
theorem test_rdreg_delta : (answerAndPhase State.reset 0x0700000003).map Prod.fst
    = some [0x43A377EE#32] := by decide +kernel

/-- The oscillators and the BUILT register after one command word, if the step completes. -/
def oscsAndBuilt (s : State) (w : Nat) : Option (List Osc × F32) :=
  match step (s.withFetchWord 40 w) with
  | .next t => some (t.oscs, builtWord t.built)
  | _ => none

/-- Section 2.3: the setters from reset. -/
theorem test_setsr : oscsAndBuilt State.reset 0x03473B8000
    = some ([⟨.sine, 0x43DC0000#32, 0x473B8000#32, 0x43962FC9#32, 0#32, false⟩], 0#32) := by
  decide +kernel
theorem test_setfq : oscsAndBuilt State.reset 0x04445C0000
    = some ([⟨.sine, 0x445C0000#32, 0x472C4400#32, 0x442377EE#32, 0#32, false⟩], 0#32) := by
  decide +kernel

/-- Section 2.3: SETWT after a NEXT keeps the phase. -/
theorem test_setwt : oscsAndBuilt (playing .sine 0x43A377EE#32 0x43A377EE#32) 0x0200000002
    = some ([⟨.saw, 0x43DC0000#32, 0x472C4400#32, 0x43A377EE#32, 0x43A377EE#32, false⟩],
        0x00000004#32) := by decide +kernel

/-- Section 2.2: WARMUP. -/
theorem test_warmup : (oscsAndBuilt State.reset 0x0100000000).map Prod.snd = some 0x0000001F#32 := by
  decide +kernel

/-- Section 2.3: OSCRST. -/
theorem test_oscrst : oscsAndBuilt (playing .noise 0x46000000#32 0x7F800000#32) 0x0800000000
    = some ([⟨.sine, 0x43DC0000#32, 0x472C4400#32, 0x43A377EE#32, 0#32, false⟩], 0#32) := by
  decide +kernel

/-- Section 2.6: SETSR of 0.0 completes and leaves the oscillator undefined. -/
theorem test_setsr_out_of_contract :
    (oscsAndBuilt State.reset 0x0300000000).map (fun r => r.1.map fun o => (o.kind, o.undef))
      = some [(.sine, true)] := by decide +kernel

/-! ### The assembler: program text of section 3 -/

theorem test_assemble_p1 :
    Asm.assemble "WARMUP\n SETSR 32768.0 ; the table size\n\nSETFQ 8192.0\nRDREG delta\nNEXT o0"
      = some [0x0100000000#40, 0x0347000000#40, 0x0446000000#40, 0x0700000003#40, 0x0500000000#40] := by
  decide +kernel
theorem test_assemble_rejects : Asm.assemble "TABRD SQUARE, 32768" = none := by decide +kernel

/-! ### Witnesses: states and operands that meet the hypotheses of the obligations -/

/-- The reset state with things for the host to do. -/
def withEvents (es : List HostEvent) : State := { State.reset with events := es }

/-- The oscillator after reset. -/
def osc0 : Osc := Osc.created Config.hw

theorem osc0_at_reset : osc? State.reset 0 = some osc0 := rfl

theorem witness_encoding :
    wellFormedWith Config.hw (.tabrd .noise 32767) = true
      ∧ decodeWith Config.hw 0x06007FFF04#40 = .ok (.tabrd .noise 32767)
      ∧ wellFormedWith { Config.hw with numOsc := 16 } (.setsr 15 0xFFFFFFFF#32) = true := by decide

theorem witness_reserved_word :
    (withEvents [.cmd 0x0F00000000#40]).events = .cmd 0x0F00000000#40 :: []
      ∧ decode 0x0F00000000#40 = .error .opcode := by decide

/-- A word under each condition of rule R55 and at its edge. -/
theorem witness_reserved_conditions :
    (0x0900000000#40 : CmdWord).toNat / 2 ^ 32 % 16 = 9
      ∧ (0x0600800000#40 : CmdWord).toNat % 2 ^ 32 / 256 = Config.hw.size
      ∧ (0x1500000000#40 : CmdWord).toNat / 2 ^ 36 = Config.hw.numOsc := by decide

theorem witness_step :
    (withEvents [.cmd 0x0500000000#40]).events = .cmd 0x0500000000#40 :: []
      ∧ decode 0x0500000000#40 = .ok (.next 0) ∧ State.reset.events = []
      ∧ wellFormed (.next 0) = true := by decide

theorem witness_assembler :
    ∃ words, Asm.assemble "NEXT" = some words ∧ 0x0500000000#40 ∈ words :=
  ⟨[0x0500000000#40], by decide +kernel, by decide⟩

theorem witness_hardware_reset :
    (withEvents [.rst, .cmd 0x0100000000#40]).events = .rst :: [.cmd 0x0100000000#40] := rfl

/-- A legal block with another sine table: all zero, with `SIN_EPS` 1. -/
def silentSine : Config := { Config.hw with sinRom := fun _ => zero false, sinEps := 1 }

theorem witness_legal : Legal silentSine where
  log2N_lo := by decide
  log2N_hi := by decide
  numOsc_lo := by decide
  numOsc_hi := by decide
  defaultFreq_pos := by decide +kernel
  defaultRate_pos := by decide +kernel
  defaultDelta_inRange := by decide +kernel
  sin_ok := fun i _ => by
    have h : val (zero false) = 0 := by
      have hu : units (zero false) = 0 := by decide
      rw [val, hu]; norm_num
    refine ⟨show isFinite (zero false) = true by decide, ?_, ?_⟩
    · show |val (zero false)| ≤ 1
      rw [h]; norm_num
    · show |((val (zero false) : ℚ) : ℝ) - Real.sin _| ≤ (((1 : ℚ)) : ℝ)
      rw [h]
      simpa using Real.abs_sin_le_one _
  noise_ok := fun _ _ => noiseOk_noiseClip _

/-- A good state in which the host is about to issue a NEXT. -/
theorem nextIssued_inv : Inv Config.hw (withEvents [.cmd 0x0500000000#40]) where
  tab_wf := List.Pairwise.nil
  tab_inside := fun x hx => absurd hx (List.not_mem_nil)
  tables := fun k i _ => by cases k <;> rfl
  oscs_length := rfl
  oscs_good := fun o ho => by
    obtain rfl : o = osc0 := by
      simpa [withEvents, State.reset, State.resetWith, osc0] using ho
    intro _
    exact ⟨by decide +kernel, by decide +kernel, rfl, by decide +kernel⟩

theorem witness_invariant_step :
    Inv Config.hw (withEvents [.cmd 0x0500000000#40])
      ∧ ∃ t, step (withEvents [.cmd 0x0500000000#40]) = .next t := ⟨nextIssued_inv, _, rfl⟩

theorem witness_table_addresses :
    32767 < Config.hw.size ∧ tableAddr Config.hw .saw 32767 = tableAddr Config.hw .saw 32767
      ∧ 5 * Config.hw.size ≤ 163840 := by decide

theorem witness_build :
    Memory.wf State.reset.tab ∧ isBuilt State.reset.built .noise = false := by decide

/-- Every table built. -/
def allBuilt : State := { State.reset with built := ⟨true, true, true, true, true⟩ }

theorem witness_warmup :
    (∀ k, isBuilt allBuilt.built k = true) ∧ isBuilt State.reset.built .sine = false
      ∧ 5 * 32768 ≤ 163840 :=
  ⟨fun k => by cases k <;> rfl, rfl, by decide⟩

theorem witness_tabrd :
    (32767#24).toNat < 32768 ∧ 32768 ≤ (32768#24).toNat
      ∧ Inv Config.hw (withEvents [.cmd 0x0500000000#40]) := ⟨by decide, by decide, nextIssued_inv⟩

theorem witness_stability :
    Inv Config.hw (withEvents [.cmd 0x0500000000#40])
      ∧ HostEvent.rst ∉ (withEvents [.cmd 0x0500000000#40]).events
      ∧ ∃ t, Host.Core.run Sys2Proof.core 1 (withEvents [.cmd 0x0500000000#40]) = .next t :=
  ⟨nextIssued_inv, by decide, _, rfl⟩

theorem witness_built_kept :
    isBuilt allBuilt.built .noise = true ∧ ∃ t, exec (.setwt 0 .noise) allBuilt = .next t :=
  ⟨rfl, _, rfl⟩

theorem witness_demand : ∃ t, exec (.setwt 0 .saw) State.reset = .next t
    ∧ isBuilt State.reset.built .saw = false ∧ isBuilt t.built .saw = true := ⟨_, rfl, rfl, rfl⟩

/-- For each of the five kinds of demand there is a run of it: the last one, NEXT. -/
theorem witness_demand_next : ∃ t, exec (.next 0) State.reset = .next t
    ∧ isBuilt t.built .sine = true := ⟨_, rfl, rfl⟩

theorem witness_table_indices :
    2 ≤ 15 ∧ 15 ≤ 23 ∧ 16383 < 2 ^ 15 ∧ 0 < 16383 ∧ 16383 < 2 ^ 15 - 1
      ∧ 16384 ≤ Config.hw.half ∧ 32767 < Config.hw.size ∧ 16383 < Config.hw.half
      ∧ units (sawWord Config.hw 8192) = 0 ∧ ¬ (Kind.triangle = .triangle ∧ 16383 = 16384) := by
  decide +kernel

theorem val_one : val 0x3F800000#32 = 1 := by
  have h : units 0x3F800000#32 = 2 ^ 149 := by decide +kernel
  rw [val, h]; norm_num

theorem witness_noise : isFinite 0x3F800000#32 = true ∧ |val 0x3F800000#32| ≤ 1 :=
  ⟨by decide, by rw [val_one]; norm_num⟩

theorem witness_rounding :
    0 < 1 ∧ |((3 : ℤ) : ℚ) / (1 : ℕ)| < 2 ^ 128 - 2 ^ 103
      ∧ (2 : ℚ) ^ 128 - 2 ^ 103 ≤ |((-(2 ^ 128 - 2 ^ 103) : ℤ) : ℚ) / (1 : ℕ)|
      ∧ isFinite 0x3F800000#32 = true :=
  ⟨by decide, by norm_num [abs_lt], by rw [le_abs]; right; norm_num, by decide⟩

/-- A tie: 2^24 + 1 lies halfway between two data, and the even one is taken. -/
theorem witness_rounding_tie : rn (2 ^ 24 + 1) 1 = 0x4B800000#32
    ∧ rn (2 ^ 24 + 3) 1 = 0x4B800002#32 := by decide +kernel

theorem witness_arithmetic :
    isFinite 0x7F7FFFFF#32 = true ∧ isFinite 0x80000001#32 = true ∧ units 0x80000001#32 ≠ 0
      ∧ isFinite 0x80000000#32 = true ∧ units 0x80000000#32 = 0 := by decide +kernel

theorem witness_special :
    isNaN 0x7FC00000#32 = true ∧ isInf 0x7F800000#32 = true ∧ isInf 0xFF800000#32 = true
      ∧ signBit 0x7F800000#32 ≠ signBit 0xFF800000#32 ∧ isNaN 0x7F800000#32 = false
      ∧ isFinite 0x3F800000#32 = true ∧ units 0x3F800000#32 ≠ 0 := by decide +kernel

/-- The clauses of the fused multiply-add: `inf * 0`, `inf * 1 - inf`, `inf * 1 + inf`, `1 * 1 - inf`. -/
theorem witness_fma :
    isFinite 0x80000000#32 = true ∧ isFinite 0x7F7FFFFF#32 = true ∧ isNaN 0xFFC00000#32 = true
      ∧ isInf 0x7F800000#32 = true ∧ units 0x80000000#32 = 0
      ∧ isNaN 0x3F800000#32 = false ∧ units 0x3F800000#32 ≠ 0 ∧ isNaN 0xFF800000#32 = false
      ∧ (isInf 0xFF800000#32 = true
          ∧ signBit 0xFF800000#32 ≠ (signBit 0x7F800000#32 != signBit 0x3F800000#32))
      ∧ ¬ (isInf 0x7F800000#32 = true
          ∧ signBit 0x7F800000#32 ≠ (signBit 0x7F800000#32 != signBit 0x3F800000#32))
      ∧ isFinite 0x3F800000#32 = true ∧ isInf 0xFF800000#32 = true := by decide +kernel

theorem witness_conversions :
    isFinite 0xBF000000#32 = true ∧ inRange 15 0x46FFFFFF#32 = true ∧ 2 ^ 24 ≤ 2 ^ 24 := by
  decide +kernel

theorem val_nonneg_of_units {x : F32} (h : 0 ≤ units x) : 0 ≤ val x :=
  div_nonneg (by exact_mod_cast h) (by positivity)

theorem witness_fraction : isFinite 0x43A377EE#32 = true ∧ 0 ≤ val 0x43A377EE#32 :=
  ⟨by decide, val_nonneg_of_units (by decide +kernel)⟩

theorem witness_wrap :
    isFinite 0x47000080#32 = true ∧ (2 : ℚ) ^ 15 ≤ val 0x47000080#32
      ∧ val 0x47000080#32 < 2 * 2 ^ 15 := by
  have h : units 0x47000080#32 = 65537 * 2 ^ 148 := by decide +kernel
  refine ⟨by decide, ?_, ?_⟩ <;> rw [val, h] <;> norm_num

theorem witness_scaling :
    isFinite 0x3F800000#32 = true ∧ |val 0x3F800000#32| * 2 ^ 15 < 2 ^ 128
      ∧ isPos 0x3F800000#32 = true ∧ (2 : ℚ) ^ 128 ≤ |val 0x7F000000#32| * 2 ^ 15 := by
  have h : units 0x7F000000#32 = 2 ^ 127 * 2 ^ 149 := by decide +kernel
  have hv : val 0x7F000000#32 = 2 ^ 127 := by rw [val, h]; norm_num
  refine ⟨by decide, by rw [val_one]; norm_num, by decide +kernel, ?_⟩
  rw [hv]; norm_num

theorem witness_advance :
    inRange 15 0x46FFFFFF#32 = true ∧ inRange 15 0x80000000#32 = true ∧ inRange 2 0x407FFFFF#32 = true
      ∧ inRange 23 0x4AFFFFFF#32 = true := by decide +kernel

/-- The floor of an integral datum, for the two clauses on the indices. -/
theorem witness_indices :
    inRange 15 0x46FFFE00#32 = true ∧ ⌊val 0x46FFFE00#32⌋.toNat = Config.hw.size - 1
      ∧ inRange 15 0x3F800000#32 = true ∧ ⌊val 0x3F800000#32⌋.toNat < Config.hw.size - 1 := by
  have h : units 0x46FFFE00#32 = 32767 * 2 ^ 149 := by decide +kernel
  have hv : val 0x46FFFE00#32 = (32767 : ℤ) := by rw [val, h]; norm_num
  have h1 : val 0x3F800000#32 = (1 : ℤ) := by rw [val_one]; norm_num
  refine ⟨by decide +kernel, ?_, by decide +kernel, ?_⟩
  · rw [hv, Int.floor_intCast]; rfl
  · rw [h1, Int.floor_intCast]; decide

theorem witness_next :
    osc? State.reset 0 = some osc0 ∧ osc0.undef = false ∧ inRange 15 osc0.continuousIndex = true
      ∧ inRange 15 osc0.delta = true := by decide +kernel

/-- Two different states whose NEXT must agree: the second has answered before and has a saw built. -/
theorem witness_determinism :
    ∃ t₁ t₂ : State,
      nextInContract Config.hw osc0 = true
        ∧ osc? { State.reset with responses := [1#32], freeCount := 7 } 0 = some osc0
        ∧ execNextWith Config.hw 0 State.reset = .next t₁
        ∧ execNextWith Config.hw 0 { State.reset with responses := [1#32], freeCount := 7 } = .next t₂
        ∧ ∀ i < Config.hw.size,
            tableWord Config.hw State.reset osc0.kind i
              = tableWord Config.hw { State.reset with responses := [1#32], freeCount := 7 } osc0.kind i :=
  ⟨_, _, by decide +kernel, rfl, rfl, rfl, fun _ _ => rfl⟩

theorem witness_zero_fraction :
    units 0x80000000#32 = 0 ∧ isFinite 0x80000000#32 = true ∧ isFinite 0x3F800000#32 = true
      ∧ isFinite 0xBF800000#32 = true ∧ isFinite (fsub 0xBF800000#32 0x3F800000#32) = true
      ∧ (0x3F800000#32 : F32) ≠ 0x80000000#32 := by decide +kernel

theorem witness_exact_phase :
    inRange 15 0x00000000#32 = true ∧ inRange 15 0x46000000#32 = true ∧ signBit 0x00000000#32 = false
      ∧ val 0x00000000#32 * 2 ^ (23 - 15) = ((0 : ℕ) : ℚ)
      ∧ val 0x46000000#32 * 2 ^ (23 - 15) = ((2097152 : ℕ) : ℚ) ∧ 2 ^ 23 ∣ 4 * 2097152 := by
  have h0 : units 0x00000000#32 = 0 := by decide +kernel
  have h : units 0x46000000#32 = 2 ^ 162 := by decide +kernel
  refine ⟨by decide +kernel, by decide +kernel, by decide, ?_, ?_, by decide⟩
  · rw [val, h0]; norm_num
  · rw [val, h]; norm_num

theorem witness_control :
    osc? State.reset 0 = some osc0 ∧ osc0.undef = false ∧ isPos 0x473B8000#32 = true
      ∧ isPos 0x00000001#32 = true := by decide +kernel

theorem witness_built_register :
    (∃ t, exec .warmup State.reset = .next t) ∧ (builtWord allBuilt.built).getLsbD 4 = true
      ∧ ∃ t, exec (.oscrst 0) allBuilt = .next t := ⟨⟨_, rfl⟩, by decide, _, rfl⟩

theorem witness_geom : Config.hw.log2N ≤ 23 ∧ 1 ≤ Config.hw.numOsc ∧ Config.hw.numOsc ≤ 16 := by
  decide

/-- Out of contract by P1, P2, P3 and P4. -/
theorem witness_out_of_contract :
    isPos 0x00000000#32 = false ∧ isPos 0xBF800000#32 = false ∧ isPos 0x7FC00000#32 = false
      ∧ inRange 15 0x47000000#32 = false ∧ inRange 15 0xBF800000#32 = false
      ∧ osc? (playing .saw 0xBF800000#32 0x47000000#32) 0
          = some { osc0 with
              kind := .saw, continuousIndex := 0xBF800000#32, delta := 0x47000000#32 } := by
  decide +kernel

/-- The reset state with its oscillator undefined. -/
def undefinedState : State := undefine 0 osc0 State.reset

theorem witness_undefined :
    ∃ o, osc? undefinedState 0 = some o ∧ o.undef = true
      ∧ (∃ t, exec (.setfq 0 0x43DC0000#32) undefinedState = .next t)
      ∧ Instr.setfq 0 0x43DC0000#32 ≠ .oscrst 0 := ⟨_, rfl, rfl, ⟨_, rfl⟩, by decide⟩

theorem witness_becomes_undefined :
    ∃ t u, exec (.setsr 0 0x00000000#32) State.reset = .next t ∧ osc? t 0 = some u
      ∧ u.undef = true := ⟨_, _, rfl, rfl, rfl⟩

theorem witness_completes : wellFormed (.tabrd .noise 32767) = true
    ∧ State.reset.oscs.length = 1 := by decide

theorem witness_responses :
    (∃ t, exec (.rdreg 0 .built) State.reset = .next t) ∧ answers (.rdreg 0 .built) = true
      ∧ (∃ t, exec (.oscrst 0) State.reset = .next t) ∧ answers (.oscrst 0) = false :=
  ⟨⟨_, rfl⟩, rfl, ⟨_, rfl⟩, rfl⟩

/-- Two oscillators. -/
def twoOscs : Config := { Config.hw with numOsc := 2 }

theorem witness_isolation :
    (1 : BitVec 4) ≠ 0
      ∧ (∃ t, execSetsrWith twoOscs 0 0x473B8000#32 (State.resetWith twoOscs) = .next t)
      ∧ (∃ t, execNextWith twoOscs 0 (State.resetWith twoOscs) = .next t)
      ∧ osc? (State.resetWith twoOscs) 1 = some (Osc.created twoOscs) :=
  ⟨by decide, ⟨_, rfl⟩, ⟨_, rfl⟩, rfl⟩

/-- For each register a command that changes it. -/
theorem witness_writers :
    (∃ t u, exec (.setwt 0 .saw) State.reset = .next t ∧ osc? t 0 = some u ∧ u.undef = false
        ∧ u.kind ≠ osc0.kind)
      ∧ (∃ t u, exec (.setfq 0 0x445C0000#32) State.reset = .next t ∧ osc? t 0 = some u
        ∧ u.undef = false ∧ u.frequency ≠ osc0.frequency ∧ u.delta ≠ osc0.delta)
      ∧ (∃ t u, exec (.setsr 0 0x473B8000#32) State.reset = .next t ∧ osc? t 0 = some u
        ∧ u.undef = false ∧ u.sampleRate ≠ osc0.sampleRate)
      ∧ (∃ t u, exec (.next 0) State.reset = .next t ∧ osc? t 0 = some u
        ∧ u.undef = false ∧ u.continuousIndex ≠ osc0.continuousIndex) := by
  refine ⟨⟨_, _, rfl, rfl, rfl, by decide⟩, ⟨_, _, rfl, rfl, ?_⟩, ⟨_, _, rfl, rfl, ?_⟩,
    ⟨_, _, rfl, rfl, ?_⟩⟩ <;> decide +kernel

end Sys2Proof.Tests
end

section
/-! PROOFS. The decoder reads back what the encoder writes (rules R51 to R56), and the step that
runs the decoded command (rules R5, R161, R171). -/

namespace Sys2Proof

/-! ### The operand words of the formats K, T and R -/

@[simp] theorem kindField_formatK (b : BitVec 3) : kindField (0#29 ++ b) = b :=
  BitVec.extractLsb'_append_eq_right

@[simp] theorem zeroField_formatK (b : BitVec 3) : (0#29 ++ b).extractLsb' 3 29 = 0#29 :=
  BitVec.extractLsb'_append_eq_left

@[simp] theorem kindField_formatT (x : BitVec 24) (b : BitVec 3) :
    kindField (x ++ 0#5 ++ b) = b :=
  BitVec.extractLsb'_append_eq_right

@[simp] theorem zeroField_formatT (x : BitVec 24) (b : BitVec 3) :
    (x ++ 0#5 ++ b).extractLsb' 3 5 = 0#5 :=
  (BitVec.extractLsb'_append_eq_of_le (le_refl 3)).trans BitVec.extractLsb'_append_eq_right

@[simp] theorem indexField_formatT (x : BitVec 24) (b : BitVec 3) :
    indexField (x ++ 0#5 ++ b) = x :=
  (BitVec.extractLsb'_append_eq_of_le (by decide : 3 ≤ 8)).trans BitVec.extractLsb'_append_eq_left

@[simp] theorem regField_formatR (b : BitVec 4) : regField (0#28 ++ b) = b :=
  BitVec.extractLsb'_append_eq_right

@[simp] theorem zeroField_formatR (b : BitVec 4) : (0#28 ++ b).extractLsb' 4 28 = 0#28 :=
  BitVec.extractLsb'_append_eq_left

/-! ### Decoding an encoded command -/

/-- Rule R51 read backwards: every check of the decoder passes on the word of a well-formed command,
and the fields it reads are the command's operands. -/
theorem decodeWith_encode {c : Config} {i : Instr} (h : wellFormedWith c i = true) :
    decodeWith c (encode i) = .ok i := by
  cases i with
  | warmup => rfl
  | setwt j k =>
    have hj : oscOk c j = true := h
    simp [encode, decodeWith, needZero_ok, needOsc_ok, needKind_ok, hj]
  | setsr j f | setfq j f | next j | oscrst j =>
    have hj : oscOk c j = true := h
    simp [encode, decodeWith, needZero_ok, needOsc_ok, hj]
  | tabrd k x =>
    have hx : indexOk c x = true := h
    simp [encode, decodeWith, needZero_ok, needBlock_ok, needKind_ok, needIndex_ok, hx]
  | rdreg j r =>
    have hj : oscOk c j = true := h
    simp [encode, decodeWith, needZero_ok, needOsc_ok, needReg_ok, hj]

theorem decode_encode {i : Instr} (h : wellFormed i = true) : decode (encode i) = .ok i :=
  decodeWith_encode h

namespace Machine

/-! ### The step -/

theorem step_of_idle {s : State} (he : s.events = []) : step s = .next s := by
  simp [step, he]

theorem step_of_decode {s : State} {w : CmdWord} {rest : List HostEvent} {i : Instr}
    (he : s.events = .cmd w :: rest) (hd : decode w = .ok i) :
    step s = exec i (takeEvent rest s) := by
  simp [step, he, hd]

/-- A 40-bit word is placed whole. -/
theorem withFetchWord_toNat (s : State) (w : CmdWord) :
    s.withFetchWord 40 w.toNat = issueFirst w s := by
  simp [State.withFetchWord, Nat.mod_eq_of_lt w.isLt]

end Machine

open Machine

/-- Settles O6: the step's equation for each kind of first event, and decoding the encoded word for
the word that `withFetchWord` places. -/
theorem stepRunsTheDecodedCommand : Obligations.StepRunsTheDecodedCommand := by
  unfold Obligations.StepRunsTheDecodedCommand
  refine ⟨fun s w rest i he hd => step_of_decode he hd, fun s he => step_of_idle he, ?_⟩
  intro s i hi
  rw [withFetchWord_toNat, step_of_decode (issueFirst_events s _) (decode_encode hi),
    takeEvent_issueFirst]

end Sys2Proof
end

section
/-! PROOFS. Rounding (rule R121): the magnitude a rounded real has, how near it is to the real, and
what follows for a real of magnitude at most 1. -/

namespace Sys2Proof

/-! ### The magnitude of a rounded real -/

/-- Two significands of one exponent field follow each other, and a carry to `2^24` is the first
significand of the next: the pattern `e * 2^23 + m` stands for `m * 2^e`. -/
theorem mag_pack_pattern (neg : Bool) {e m : Nat} (hlo : e = 0 ∨ 2 ^ 23 ≤ m) (hhi : m ≤ 2 ^ 24)
    (he : e ≤ 253) : mag (pack neg (e * 2 ^ 23 + m)) = m * 2 ^ e := by
  rw [mag_pack neg (by omega)]
  rcases Nat.lt_or_ge m (2 ^ 23) with hm | hm
  · obtain rfl : e = 0 := by omega
    rw [if_pos (by omega)]; omega
  rcases Nat.lt_or_ge m (2 ^ 24) with hm' | hm'
  · have hdiv : (e * 2 ^ 23 + m) / 2 ^ 23 = e + 1 := by omega
    have hmod : 2 ^ 23 + (e * 2 ^ 23 + m) % 2 ^ 23 = m := by omega
    rw [if_neg (by omega), hdiv, hmod, Nat.add_sub_cancel]
  · obtain rfl : m = 2 ^ 24 := by omega
    have hdiv : (e * 2 ^ 23 + 2 ^ 24) / 2 ^ 23 = e + 2 := by omega
    have hmod : (e * 2 ^ 23 + 2 ^ 24) % 2 ^ 23 = 0 := by omega
    rw [if_neg (by omega), hdiv, hmod, show e + 2 - 1 = e + 1 from rfl]
    ring

/-- A quotient between two whole numbers rounds to a number between them. -/
theorem roundHalfEven_mem {n d a b : Nat} (hd : 0 < d) (ha : a * d ≤ n) (hb : n ≤ b * d) :
    a ≤ roundHalfEven n d ∧ roundHalfEven n d ≤ b := by
  obtain ⟨h1, h2⟩ := roundHalfEven_near n hd
  constructor
  · by_contra hc
    have := Nat.mul_le_mul_right d (show roundHalfEven n d + 1 ≤ a by omega)
    rw [Nat.add_mul] at this
    omega
  · by_contra hc
    have := Nat.mul_le_mul_right d (show b + 1 ≤ roundHalfEven n d by omega)
    rw [Nat.add_mul] at this
    omega

/-- The unit in the last place leaves a significand of 24 bits, or fewer at the least exponent. -/
theorem ulpShift_bounds (q : Nat) :
    (ulpShift q = 0 ∨ 2 ^ 23 * 2 ^ ulpShift q ≤ q) ∧ q < 2 ^ 24 * 2 ^ ulpShift q := by
  have hlt : q < 2 ^ (Nat.log2 q + 1) := Nat.lt_log2_self
  unfold ulpShift
  rcases Nat.lt_or_ge (Nat.log2 q) 24 with hl | hl
  · have hz : Nat.log2 q - 23 = 0 := by omega
    rw [hz]
    exact ⟨.inl rfl, hlt.trans_le (Nat.pow_le_pow_right (n := 2) two_pos (by omega : _ ≤ 24))⟩
  · have hne : q ≠ 0 := by rintro rfl; simp at hl
    rw [← Nat.pow_add, ← Nat.pow_add]
    refine ⟨.inr ?_, ?_⟩
    · rw [show 23 + (Nat.log2 q - 23) = Nat.log2 q by omega]
      exact Nat.log2_self_le hne
    · rwa [show 24 + (Nat.log2 q - 23) = Nat.log2 q + 1 by omega]

/-- The significand that `roundMag` gives the real `n / d` units of `2^-149`. -/
def roundSig (n d : Nat) : Nat := roundHalfEven n (d * 2 ^ ulpShift (n / d))

theorem roundSig_bounds (n : Nat) {d : Nat} (hd : 0 < d) :
    (ulpShift (n / d) = 0 ∨ 2 ^ 23 ≤ roundSig n d) ∧ roundSig n d ≤ 2 ^ 24 := by
  obtain ⟨hlo, hhi⟩ := ulpShift_bounds (n / d)
  have hpos : 0 < d * 2 ^ ulpShift (n / d) := by positivity
  have hb : n ≤ 2 ^ 24 * (d * 2 ^ ulpShift (n / d)) := by
    have := (Nat.div_lt_iff_lt_mul hd).1 hhi
    linarith
  refine ⟨hlo.imp id fun h => ?_, (roundHalfEven_mem hpos (a := 0) (by simp) hb).2⟩
  have ha : 2 ^ 23 * (d * 2 ^ ulpShift (n / d)) ≤ n := by
    have := (Nat.le_div_iff_mul_le hd).1 h
    linarith
  exact (roundHalfEven_mem hpos ha hb).1

theorem ulpShift_le {q k : Nat} (hq : q < 2 ^ (24 + k)) : ulpShift q ≤ k := by
  by_contra hc
  rcases (ulpShift_bounds q).1 with h | h
  · omega
  · rw [← Nat.pow_add] at h
    have := Nat.pow_le_pow_right (n := 2) two_pos (show 24 + k ≤ 23 + ulpShift q by omega)
    omega

/-- No pattern of a finite exponent is cut off at the infinity's. -/
theorem roundMag_eq {n d : Nat} (hd : 0 < d) (he : ulpShift (n / d) ≤ 253) :
    roundMag n d = ulpShift (n / d) * 2 ^ 23 + roundSig n d := by
  have hm := (roundSig_bounds n hd).2
  exact Nat.min_eq_left (by unfold roundSig at hm; omega)

theorem mag_roundMag (neg : Bool) {n d : Nat} (hd : 0 < d) (he : ulpShift (n / d) ≤ 253) :
    mag (pack neg (roundMag n d)) = roundSig n d * 2 ^ ulpShift (n / d) := by
  obtain ⟨hlo, hhi⟩ := roundSig_bounds n hd
  rw [roundMag_eq hd he, mag_pack_pattern neg hlo hhi he]

/-- Rounding is within half a unit in the last place. -/
theorem mag_roundMag_near (neg : Bool) {n d : Nat} (hd : 0 < d) (he : ulpShift (n / d) ≤ 253) :
    2 * n ≤ 2 * (mag (pack neg (roundMag n d)) * d) + d * 2 ^ ulpShift (n / d)
      ∧ 2 * (mag (pack neg (roundMag n d)) * d) ≤ 2 * n + d * 2 ^ ulpShift (n / d) := by
  have h := roundHalfEven_near n (d := d * 2 ^ ulpShift (n / d)) (by positivity)
  have hassoc : roundSig n d * 2 ^ ulpShift (n / d) * d
      = roundHalfEven n (d * 2 ^ ulpShift (n / d)) * (d * 2 ^ ulpShift (n / d)) := by
    rw [roundSig]; ring
  rwa [mag_roundMag neg hd he, hassoc]

/-! ### Magnitudes of at most 1 -/

theorem roundMag_one {d : Nat} (hd : 0 < d) : roundMag (2 ^ 149 * d) d = 126 * 2 ^ 23 + 2 ^ 23 := by
  have hq : ulpShift (2 ^ 149 * d / d) = 126 := by
    rw [Nat.mul_div_cancel _ hd]; decide +kernel
  have hsig : roundSig (2 ^ 149 * d) d = 2 ^ 23 := by
    rw [roundSig, hq, show 2 ^ 149 * d = 2 ^ 23 * (d * 2 ^ 126) by ring,
      roundHalfEven_mul _ (by positivity)]
  rw [roundMag_eq hd (by omega), hq, hsig]

/-- A magnitude of at most 1 rounds to one of at most 1, by an error of at most `2^-25`. -/
theorem mag_roundMag_unit (neg : Bool) {n d : Nat} (hd : 0 < d) (hn : n ≤ 2 ^ 149 * d) :
    mag (pack neg (roundMag n d)) ≤ 2 ^ 149
      ∧ n ≤ mag (pack neg (roundMag n d)) * d + d * 2 ^ 124
      ∧ mag (pack neg (roundMag n d)) * d ≤ n + d * 2 ^ 124 := by
  rcases hn.eq_or_lt with rfl | hlt
  · have hmag : mag (pack neg (roundMag (2 ^ 149 * d) d)) = 2 ^ 149 := by
      rw [roundMag_one hd, mag_pack_pattern neg (by omega) (by omega) (by omega)]; norm_num
    rw [hmag]
    omega
  · have he : ulpShift (n / d) ≤ 125 := ulpShift_le ((Nat.div_lt_iff_lt_mul hd).2 hlt)
    have hpow : 2 ^ ulpShift (n / d) ≤ 2 ^ 125 := Nat.pow_le_pow_right two_pos he
    have hnear := mag_roundMag_near neg hd (he.trans (by decide))
    have hle : d * 2 ^ ulpShift (n / d) ≤ d * 2 ^ 125 := Nat.mul_le_mul_left d hpow
    refine ⟨?_, by omega, by omega⟩
    rw [mag_roundMag neg hd (he.trans (by decide))]
    exact (Nat.mul_le_mul (roundSig_bounds n hd).2 hpow).trans_eq (by norm_num)

/-! ### Signed reals -/

theorem isFinite_of_mag_le {x : F32} (h : mag x ≤ oneUnits) : isFinite x = true := by
  by_contra hx
  have hexp : expField x = 255 := by simpa [isFinite] using hx
  have hbig : 2 ^ 23 * 2 ^ 254 ≤ mag x := by
    rw [mag, if_neg (by omega), hexp]
    exact Nat.mul_le_mul_right _ (by omega)
  exact absurd (hbig.trans h) (by decide +kernel)

theorem abs_units (x : F32) : |units x| = mag x := by
  rw [Int.abs_eq_natAbs, natAbs_units]

theorem signBit_roundUnits (r : Int) (d : Nat) : signBit (roundUnits r d) = decide (r < 0) :=
  signBit_pack _ ((roundMag_le _ _).trans_lt (by decide))

/-- The error of rounding a signed real is that of rounding its magnitude. -/
theorem abs_units_roundUnits_sub (r : Int) (d : Nat) :
    |units (roundUnits r d) * d - r| = |(mag (roundUnits r d) : Int) * d - r.natAbs| := by
  unfold units
  rw [signBit_roundUnits]
  rcases lt_or_ge r 0 with hr | hr
  · rw [if_pos (by simpa using hr), ← abs_neg]
    congr 1; rw [Int.ofNat_natAbs_of_nonpos hr.le]; ring
  · rw [if_neg (by simpa using hr), Int.natAbs_of_nonneg hr]

/-- Rule R121 for a real of magnitude at most 1: the word is finite, of magnitude at most 1, and
within `2^-25`, half the unit in the last place just below 1. -/
theorem rn_unit {num : Int} {den : Nat} (hd : 0 < den) (h : num.natAbs ≤ den) :
    isFinite (rn num den) = true ∧ |val (rn num den)| ≤ 1
      ∧ |val (rn num den) - num / den| ≤ 1 / 2 ^ 25 := by
  by_cases h0 : num = 0
  · have hv : val (rn num den) = 0 := by simp [rn, h0, val]
    rw [hv, h0]
    simp [rn]
  have hx : rn num den = roundUnits (num * oneUnits) den := if_neg h0
  have habs : (num * oneUnits).natAbs ≤ 2 ^ 149 * den := by
    rw [Int.natAbs_mul, Int.natAbs_natCast, Nat.mul_comm]
    exact Nat.mul_le_mul_left _ h
  obtain ⟨hle, hlo, hhi⟩ := mag_roundMag_unit (decide (num * oneUnits < 0)) hd habs
  have herr : |units (rn num den) * den - num * oneUnits| ≤ (den * 2 ^ 124 : Nat) := by
    rw [hx, abs_units_roundUnits_sub, abs_le, roundUnits]
    omega
  rw [← roundUnits, ← hx] at hle
  refine ⟨isFinite_of_mag_le hle, ?_, ?_⟩
  · rw [val, abs_div, ← Int.cast_abs, abs_units, abs_of_pos (by positivity : (0 : ℚ) < 2 ^ 149),
      div_le_one (by positivity)]
    exact_mod_cast hle
  · have hden : (0 : ℚ) < den := by exact_mod_cast hd
    have hdiff : val (rn num den) - num / den
        = ((units (rn num den) * den - num * oneUnits : Int) : ℚ) / (2 ^ 149 * den) := by
      rw [val, oneUnits]; push_cast; field_simp; ring
    have herr' : |((units (rn num den) * den - num * oneUnits : Int) : ℚ)| ≤ den * 2 ^ 124 := by
      exact_mod_cast herr
    rw [hdiff, abs_div, abs_of_pos (by positivity : (0 : ℚ) < 2 ^ 149 * den),
      div_le_iff₀ (by positivity)]
    exact herr'.trans_eq (by ring)

end Sys2Proof
end

section
/-! PROOFS. The model's sine series (rule R74, log entry 7): how near the cut-off power series is to
the sine, that the nested fractions of `sinNest` compute it, and how near the fraction behind each
word of the sine table is to its ideal. -/

namespace Sys2Proof

/-! ### The power series -/

/-- The first `n` terms of the power series of the sine. -/
noncomputable def sinSeries (n : ℕ) (x : ℝ) : ℝ :=
  ∑ j ∈ Finset.range n, (-1) ^ j * x ^ (2 * j + 1) / (2 * j + 1).factorial

theorem sinSeries_succ (n : ℕ) (x : ℝ) :
    sinSeries (n + 1) x
      = sinSeries n x + (-1) ^ n * x ^ (2 * n + 1) / (2 * n + 1).factorial :=
  Finset.sum_range_succ _ _

/-- The imaginary part of the exponential series at `x * I` is the sine's. -/
theorem im_expSeries (n : ℕ) (x : ℝ) :
    (∑ m ∈ Finset.range (2 * n + 1), ((x : ℂ) * Complex.I) ^ m / m.factorial).im
      = sinSeries n x := by
  induction n with
  | zero => simp [sinSeries]
  | succ n ih =>
    have hodd : (((x : ℂ) * Complex.I) ^ (2 * n + 1) / (2 * n + 1).factorial)
        = (((-1) ^ n * x ^ (2 * n + 1) / (2 * n + 1).factorial : ℝ) : ℂ) * Complex.I := by
      rw [mul_pow, pow_succ Complex.I, pow_mul Complex.I, Complex.I_sq]; push_cast; ring
    have heven : (((x : ℂ) * Complex.I) ^ (2 * n + 2) / (2 * n + 2).factorial)
        = (((-1) ^ (n + 1) * x ^ (2 * n + 2) / (2 * n + 2).factorial : ℝ) : ℂ) := by
      rw [mul_pow, show 2 * n + 2 = 2 * (n + 1) by ring, pow_mul Complex.I, Complex.I_sq]
      push_cast; ring
    rw [show 2 * (n + 1) + 1 = 2 * n + 1 + 1 + 1 by ring, Finset.sum_range_succ,
      Finset.sum_range_succ, Complex.add_im, Complex.add_im, ih, hodd, heven, Complex.ofReal_im,
      Complex.im_ofReal_mul, Complex.I_im, sinSeries_succ]
    ring

theorem abs_sin_sub_sinSeries_le {n : ℕ} {x : ℝ} (hx : |x| ≤ n + 1) :
    |Real.sin x - sinSeries n x| ≤ |x| ^ (2 * n + 1) / (2 * n + 1).factorial * 2 := by
  have hnorm : ‖(x : ℂ) * Complex.I‖ = |x| := by simp
  have hsmall : ‖(x : ℂ) * Complex.I‖ / (2 * n + 1).succ ≤ 1 / 2 := by
    rw [hnorm, div_le_iff₀ (by positivity)]; push_cast; linarith
  have h := Complex.exp_bound' hsmall
  rw [hnorm] at h
  refine le_trans ?_ h
  rw [← im_expSeries, ← Complex.exp_ofReal_mul_I_im, ← Complex.sub_im]
  exact Complex.abs_im_le_norm _

/-- The series cut off after the 27th power is below the sine, by at most twice its next term. -/
theorem sinSeries_bounds {x : ℝ} (h0 : 0 ≤ x) (h2 : x ≤ 2) :
    sinSeries 14 x ≤ Real.sin x
      ∧ Real.sin x ≤ sinSeries 14 x + 2 * (x ^ 29 / Nat.factorial 29) := by
  have h := abs_sin_sub_sinSeries_le (n := 15) (x := x)
    (by rw [abs_of_nonneg h0]; norm_num; linarith)
  have hnext : x ^ 31 / Nat.factorial 31 * 2 ≤ x ^ 29 / Nat.factorial 29 := by
    have hsq : x ^ 2 ≤ 4 := by nlinarith
    have hfac : Nat.factorial 31 = 930 * Nat.factorial 29 := rfl
    calc x ^ 31 / Nat.factorial 31 * 2 = x ^ 29 / Nat.factorial 29 * (x ^ 2 / 465) := by
          rw [hfac]; push_cast; ring
      _ ≤ x ^ 29 / Nat.factorial 29 := mul_le_of_le_one_right (by positivity) (by linarith)
  rw [abs_of_nonneg h0, abs_le, sinSeries_succ] at h
  obtain ⟨hl, hu⟩ := h
  constructor <;> linarith

/-! ### The model's nested form -/

/-- A fraction of the model as a real. -/
noncomputable def fracVal (f : Int × Nat) : ℝ := f.1 / f.2

theorem sinNest_den_pos (u2 : Nat) {v2 : Nat} (hv : 0 < v2) (t : Nat) {k : Nat} (hk : 0 < k) :
    0 < (sinNest u2 v2 t k).2 := by
  induction t generalizing k with
  | zero => exact one_pos
  | succ t ih =>
    have := ih (Nat.succ_pos k)
    simp only [sinNest]; positivity

theorem fracVal_sinNest_succ (u2 : Nat) {v2 : Nat} (hv : 0 < v2) (t : Nat) {k : Nat} (hk : 0 < k) :
    fracVal (sinNest u2 v2 (t + 1) k)
      = 1 - u2 / v2 / (2 * k * (2 * k + 1)) * fracVal (sinNest u2 v2 t (k + 1)) := by
  have h := sinNest_den_pos u2 hv t (Nat.succ_pos k)
  simp only [fracVal, sinNest]
  push_cast
  field_simp

/-- The nested form from `k` on is the tail of the sine's series without its leading factor. -/
theorem fracVal_sinNest {x : ℝ} {u2 v2 : Nat} (hv : 0 < v2) (hx : x ^ 2 = u2 / v2) (t k : Nat) :
    (-1) ^ k * x ^ (2 * k + 1) / (2 * k + 1).factorial * fracVal (sinNest u2 v2 t (k + 1))
      = sinSeries (k + t + 1) x - sinSeries k x := by
  induction t generalizing k with
  | zero => rw [add_zero, sinSeries_succ]; simp [fracVal, sinNest]
  | succ t ih =>
    have h := ih (k + 1)
    rw [sinSeries_succ k, show 2 * (k + 1) + 1 = 2 * k + 1 + 1 + 1 by ring, Nat.factorial_succ,
      Nat.factorial_succ] at h
    rw [fracVal_sinNest_succ u2 hv t (Nat.succ_pos k), ← hx,
      show k + (t + 1) + 1 = k + 1 + t + 1 by ring, sub_eq_iff_eq_add.1 h.symm]
    push_cast
    field_simp
    ring

/-- The model's `pi`. -/
noncomputable def seriesPi : ℝ := piNum / piDen

theorem seriesPi_bounds : 3 ≤ seriesPi ∧ seriesPi ≤ Real.pi ∧ Real.pi ≤ seriesPi + 1 / 10 ^ 20 := by
  have hval : seriesPi = 3.14159265358979323846 := by norm_num [seriesPi, piNum, piDen]
  have hlo := Real.pi_gt_d20
  have hhi := Real.pi_lt_d20
  rw [hval]
  refine ⟨by norm_num, hlo.le, hhi.le.trans (by norm_num)⟩

theorem sinQuarter_den_pos {m : Nat} (hm : 0 < m) (a : Nat) : 0 < (sinQuarter m a).2 := by
  have hv : 0 < piDen * m := Nat.mul_pos (by decide) hm
  exact Nat.mul_pos hv (sinNest_den_pos _ (Nat.mul_pos hv hv) 13 one_pos)

/-- What `sinQuarter` computes: the cut-off series at its angle, with the model's `pi`. -/
theorem fracVal_sinQuarter {m : Nat} (hm : 0 < m) (a : Nat) :
    fracVal (sinQuarter m a) = sinSeries 14 (seriesPi * (a / m)) := by
  have hv : 0 < piDen * m := Nat.mul_pos (by decide) hm
  have hangle : seriesPi * (a / m) = (piNum * a : ℕ) / (piDen * m : ℕ) := by
    rw [seriesPi]; push_cast; ring
  have hsq : (seriesPi * (a / m)) ^ 2
      = ((piNum * a * (piNum * a) : ℕ) : ℝ) / ((piDen * m * (piDen * m) : ℕ) : ℝ) := by
    rw [hangle]; push_cast; ring
  have hseries := fracVal_sinNest (Nat.mul_pos hv hv) hsq 13 0
  have hzero : sinSeries 0 (seriesPi * (a / m)) = 0 := rfl
  have hfactor (x : ℝ) : (-1) ^ 0 * x ^ (2 * 0 + 1) / (2 * 0 + 1).factorial = x := by simp
  rw [hzero, sub_zero, hfactor] at hseries
  rw [show 14 = 0 + 13 + 1 from rfl, ← hseries, hangle, fracVal, fracVal, div_mul_div_comm]
  simp only [sinQuarter, Int.cast_mul, Int.cast_natCast, Nat.cast_mul]

/-! ### How near the series is to the sine -/

/-- The fraction `f` stands for the sine `s`: of magnitude at most 1, and off by at most
`2^-60` of `s`. -/
structure SineFrac (f : Int × Nat) (s : ℝ) : Prop where
  den_pos : 0 < f.2
  num_le : f.1.natAbs ≤ f.2
  near : |fracVal f - s| ≤ |s| / 2 ^ 60

/-- A fraction a little below a sine that is not negative. -/
theorem SineFrac.of_le {f : Int × Nat} {s : ℝ} (hden : 0 < f.2) (h0 : 0 ≤ fracVal f)
    (hle : fracVal f ≤ s) (hs : s ≤ 1) (hnear : s - fracVal f ≤ s / 2 ^ 60) : SineFrac f s where
  den_pos := hden
  num_le := by
    have hden' : (0 : ℝ) < f.2 := by exact_mod_cast hden
    have hhi : f.1 ≤ f.2 := by exact_mod_cast (div_le_one hden').1 (hle.trans hs)
    have hlo : 0 ≤ f.1 := by
      rw [fracVal, le_div_iff₀ hden', zero_mul] at h0
      exact_mod_cast h0
    omega
  near := by rwa [abs_sub_comm, abs_of_nonneg (sub_nonneg.2 hle), abs_of_nonneg (h0.trans hle)]

theorem SineFrac.neg {f : Int × Nat} {s : ℝ} (h : SineFrac f s) : SineFrac (-f.1, f.2) (-s) where
  den_pos := h.den_pos
  num_le := (Int.natAbs_neg f.1).trans_le h.num_le
  near := by
    have hf : fracVal (-f.1, f.2) = -fracVal f := by simp [fracVal, neg_div]
    rw [hf, abs_neg, ← neg_sub', abs_neg]
    exact h.near

/-- The series at `y`, a little below `x`, is below the sine of `x` by at most `2^-60` of it: the
next term of the series and the gap between the angles are small beside `x`, which is at most
`2 * sin x`. -/
theorem sinSeries_near {x y : ℝ} (h0 : 0 ≤ y) (hyx : y ≤ x) (hx : x ≤ Real.pi / 2)
    (hgap : x - y ≤ x / 10 ^ 20) :
    0 ≤ sinSeries 14 y ∧ sinSeries 14 y ≤ Real.sin x
      ∧ Real.sin x - sinSeries 14 y ≤ Real.sin x / 2 ^ 60 := by
  have hpi : Real.pi / 2 ≤ 2 := by linarith [Real.pi_le_four]
  obtain ⟨hlo, hhi⟩ := sinSeries_bounds h0 (by linarith)
  have hmono : Real.sin y ≤ Real.sin x :=
    Real.sin_le_sin_of_le_of_le_pi_div_two (by linarith) hx hyx
  have hlip : Real.sin x - Real.sin y ≤ x - y :=
    (le_abs_self _).trans ((Real.abs_sin_sub_sin_le x y).trans_eq (abs_of_nonneg (by linarith)))
  have hterm : 2 * (y ^ 29 / Nat.factorial 29) ≤ x / 10 ^ 20 := by
    have hy28 : y ^ 28 ≤ 2 ^ 28 := pow_le_pow_left₀ h0 (by linarith) 28
    calc 2 * (y ^ 29 / Nat.factorial 29) = y * (2 * y ^ 28 / Nat.factorial 29) := by ring
      _ ≤ x * (1 / 10 ^ 20) := by
        refine mul_le_mul hyx ?_ (by positivity) (h0.trans hyx)
        rw [div_le_div_iff₀ (by positivity) (by positivity)]
        norm_num [Nat.factorial]
        linarith
      _ = x / 10 ^ 20 := by ring
  have hjordan : x ≤ 2 * Real.sin x := by
    have h := Real.mul_le_sin (h0.trans hyx) hx
    have hhalf : (1 / 2 : ℝ) ≤ 2 / Real.pi := by
      rw [div_le_div_iff₀ two_pos Real.pi_pos]; linarith
    nlinarith [mul_le_mul_of_nonneg_right hhalf (h0.trans hyx)]
  have hnear : Real.sin x - sinSeries 14 y ≤ Real.sin x / 2 ^ 60 := by linarith
  exact ⟨by linarith, hlo.trans hmono, hnear⟩

theorem sinQuarter_sineFrac {m a : Nat} (hm : 0 < m) (ha : 2 * a ≤ m) :
    SineFrac (sinQuarter m a) (Real.sin (Real.pi * a / m)) := by
  obtain ⟨hpi3, hpilo, hpihi⟩ := seriesPi_bounds
  have hm' : (0 : ℝ) < m := by exact_mod_cast hm
  have hratio : (a / m : ℝ) ≤ 1 / 2 := by
    rw [div_le_div_iff₀ hm' two_pos]; exact_mod_cast (by omega : a * 2 ≤ 1 * m)
  have hr0 : (0 : ℝ) ≤ a / m := by positivity
  rw [mul_div_assoc]
  obtain ⟨hpos, hle, hnear⟩ := sinSeries_near (x := Real.pi * (a / m)) (y := seriesPi * (a / m))
    (mul_nonneg (by linarith) hr0) (mul_le_mul_of_nonneg_right hpilo hr0)
    (by nlinarith [Real.pi_pos]) (by nlinarith)
  rw [← fracVal_sinQuarter hm a] at hpos hle hnear
  exact .of_le (sinQuarter_den_pos hm a) hpos hle (Real.sin_le_one _) hnear

theorem sinHalf_sineFrac {m t : Nat} (hm : 0 < m) (ht : t ≤ m) :
    SineFrac (sinHalf m t) (Real.sin (Real.pi * t / m)) := by
  unfold sinHalf
  split
  · next h => exact sinQuarter_sineFrac hm h
  · next h =>
    have hmirror : Real.pi * t / m = Real.pi - Real.pi * (m - t : ℕ) / m := by
      have : (m : ℝ) ≠ 0 := by positivity
      push_cast [ht]; field_simp; ring
    rw [hmirror, Real.sin_pi_sub]
    exact sinQuarter_sineFrac hm (by omega)

/-- Rule R74: each word of the sine table is `RN` of a fraction that stands for its ideal sine. -/
theorem sinWord_eq_rn {m i : Nat} (hm : 0 < m) (hi : i ≤ m) :
    ∃ f, sinWord m i = rn f.1 f.2 ∧ SineFrac f (Real.sin (2 * Real.pi * i / m)) := by
  unfold sinWord
  split
  · next h =>
    refine ⟨_, rfl, ?_⟩
    rw [show 2 * Real.pi * i / m = Real.pi * (2 * i : ℕ) / m by push_cast; ring]
    exact sinHalf_sineFrac hm h
  · next h =>
    refine ⟨(-(sinHalf m (2 * (m - i))).1, (sinHalf m (2 * (m - i))).2), rfl, ?_⟩
    have hmirror : 2 * Real.pi * i / m = 2 * Real.pi - Real.pi * (2 * (m - i) : ℕ) / m := by
      have : (m : ℝ) ≠ 0 := by positivity
      push_cast [hi]; field_simp; ring
    rw [hmirror, Real.sin_two_pi_sub]
    exact (sinHalf_sineFrac hm (by omega)).neg

end Sys2Proof
end

section
/-! PROOFS. This hardware's parameters are legal (rules R4, R74, R78, R162, entry U8). -/

namespace Sys2Proof

open Machine

/-- Rounding adds at most `2^-25` to the error of a fraction that stands for a sine (entry U8). -/
theorem SineFrac.rn_near {f : Int × Nat} {s : ℝ} (h : SineFrac f s) (hs : |s| ≤ 1) :
    isFinite (rn f.1 f.2) = true ∧ |val (rn f.1 f.2)| ≤ 1
      ∧ |((val (rn f.1 f.2) : ℚ) : ℝ) - s| ≤ 1 / 2 ^ 25 + 1 / 2 ^ 60 := by
  obtain ⟨hfin, hle, hround⟩ := rn_unit h.den_pos h.num_le
  have hround' : |((val (rn f.1 f.2) : ℚ) : ℝ) - fracVal f| ≤ 1 / 2 ^ 25 := by
    have h := (Rat.cast_le (K := ℝ)).2 hround
    push_cast at h
    exact h
  have hseries : |fracVal f - s| ≤ 1 / 2 ^ 60 :=
    h.near.trans (div_le_div_of_nonneg_right hs (by positivity))
  exact ⟨hfin, hle, (abs_sub_le _ (fracVal f) _).trans (add_le_add hround' hseries)⟩

/-- Rule R74 and entry U8, for every table size. -/
theorem sinWord_sineWordOk {L i : Nat} (hL : 1 ≤ L) (hi : i < 2 ^ L) :
    SineWordOk L (1 / 2 ^ 25 + 1 / 2 ^ 60) (sinWord (2 ^ L - 1) i) i := by
  have hpow : 2 ^ 1 ≤ 2 ^ L := Nat.pow_le_pow_right two_pos hL
  obtain ⟨f, hf, hsine⟩ := sinWord_eq_rn (m := 2 ^ L - 1) (i := i) (by omega) (by omega)
  rw [Nat.cast_sub (by omega), Nat.cast_pow, Nat.cast_ofNat, Nat.cast_one] at hsine
  obtain ⟨hfin, hle, hnear⟩ := hsine.rn_near (Real.abs_sin_le_one _)
  rw [hf]
  exact ⟨hfin, hle, by push_cast; exact hnear⟩

/-- Settles O59: the ranges by evaluation, the sine table by the error of its series and of the
rounding, the noise table by the limit on its draws. -/
theorem hardwareParametersAreLegal : Obligations.HardwareParametersAreLegal where
  log2N_lo := by decide
  log2N_hi := by decide
  numOsc_lo := by decide
  numOsc_hi := by decide
  defaultFreq_pos := by decide +kernel
  defaultRate_pos := by decide +kernel
  defaultDelta_inRange := by decide +kernel
  sin_ok := fun _ hi => sinWord_sineWordOk (by decide) hi
  noise_ok := fun _ _ => noiseOk_noiseClip _

end Sys2Proof
end

section
/-! PROOFS. What a command can do, said once: the next state of every command, with what it writes to
the oscillators (rules R11 to R15, R26) and to the table store (rules R32, R45, R71). -/

namespace Sys2Proof.Machine

/-! ### The next state of a command -/

/-- The meaning of a command for any parameters. -/
def execWith (c : Config) : Instr → State → Host.Outcome State Fault Refusal
  | .warmup => execWarmupWith c
  | .setwt j k => execSetwtWith c j k
  | .setsr j f => execSetsrWith c j f
  | .setfq j f => execSetfqWith c j f
  | .next j => execNextWith c j
  | .tabrd k x => execTabrdWith c k x
  | .rdreg j r => execRdregWith c j r
  | .oscrst j => execOscrstWith c j

/-- The dispatch runs the meanings with this hardware's parameters. -/
theorem exec_eq_execWith (i : Instr) (s : State) : exec i s = execWith Config.hw i s := by
  cases i <;> rfl

/-- The answer of an in-contract NEXT on an oscillator that holds `o` (rule R108). -/
def sample (c : Config) (s : State) (o : Osc) : F32 :=
  lerp c.lerpMode (splitPhase c.log2N o.continuousIndex).2
    (tableWord c s o.kind (readIndices c (splitPhase c.log2N o.continuousIndex).1).1)
    (tableWord c s o.kind (readIndices c (splitPhase c.log2N o.continuousIndex).1).2)

/-- `Completes c s i t`: command `i` completes in state `s`, in or out of contract, and leaves `t`. -/
inductive Completes (c : Config) (s : State) : Instr → State → Prop
  | warmup : Completes c s .warmup (warmAll c s)
  | setwt {j k o} (ho : osc? s j = some o) :
      Completes c s (.setwt j k) (setOsc j { o with kind := k } (getTable c k s))
  | setsr {j f o} (ho : osc? s j = some o) (hc : setterInContract o f = true) :
      Completes c s (.setsr j f)
        (setOsc j { o with sampleRate := f, delta := deltaOf c.log2N o.frequency f } s)
  | setsrOut {j f o} (ho : osc? s j = some o) (hc : setterInContract o f = false) :
      Completes c s (.setsr j f) (undefine j o s)
  | setfq {j f o} (ho : osc? s j = some o) (hc : setterInContract o f = true) :
      Completes c s (.setfq j f)
        (setOsc j { o with frequency := f, delta := deltaOf c.log2N f o.sampleRate } s)
  | setfqOut {j f o} (ho : osc? s j = some o) (hc : setterInContract o f = false) :
      Completes c s (.setfq j f) (undefine j o s)
  | next {j o} (ho : osc? s j = some o) (hc : nextInContract c o = true) :
      Completes c s (.next j)
        (respond (sample c s o)
          (setOsc j { o with continuousIndex := advance c.log2N o.continuousIndex o.delta }
            (getTable c o.kind s)))
  | nextOut {j o} (ho : osc? s j = some o) (hc : nextInContract c o = false) :
      Completes c s (.next j) (nextUndefined c j o s)
  | tabrd {k} {x : BitVec 24} (hx : x.toNat < c.size) :
      Completes c s (.tabrd k x) (respond (tableWord c s k x.toNat) (getTable c k s))
  | rdreg {j r o} (ho : osc? s j = some o) (hr : (o.undef && isFloatReg r) = false) :
      Completes c s (.rdreg j r) (respond (regValue c s o r) s)
  | rdregFree {j r o} (ho : osc? s j = some o) (hr : (o.undef && isFloatReg r) = true) :
      Completes c s (.rdreg j r) (respond (freeAt s 0) (spendFree 1 s))
  | oscrst {j o} (ho : osc? s j = some o) : Completes c s (.oscrst j) (recreate c j s)

variable {c : Config} {i : Instr} {s t : State}

theorem Completes.execWith_eq (h : Completes c s i t) : execWith c i s = .next t := by
  cases h with
  | warmup => rfl
  | setwt ho | oscrst ho => exact onOsc_some ho _
  | setsr ho hc | setfq ho hc | nextOut ho hc | rdreg ho hc | rdregFree ho hc
  | setsrOut ho hc | setfqOut ho hc =>
    exact (onOsc_some ho _).trans (by simp [hc])
  | next ho hc => exact (onOsc_some ho _).trans ((if_pos hc).trans (nextSample_eq c _ _ s))
  | tabrd hx => simp [execWith, execTabrdWith, indexOk, hx, tabRead_ok]

theorem Completes.of_execWith (h : execWith c i s = .next t) : Completes c s i t := by
  cases i with
  | warmup => cases h; exact .warmup
  | setwt j k | oscrst j =>
    obtain ⟨o, ho, h⟩ := onOsc_next h
    cases h
    constructor
    exact ho
  | setsr j f =>
    obtain ⟨o, ho, h⟩ := onOsc_next h
    split at h
    · next hc => cases h; exact .setsr ho hc
    · next hc => cases h; exact .setsrOut ho (by simpa using hc)
  | setfq j f =>
    obtain ⟨o, ho, h⟩ := onOsc_next h
    split at h
    · next hc => cases h; exact .setfq ho hc
    · next hc => cases h; exact .setfqOut ho (by simpa using hc)
  | next j =>
    obtain ⟨o, ho, h⟩ := onOsc_next h
    split at h
    · next hc => rw [nextSample_eq] at h; cases h; exact .next ho hc
    · next hc => cases h; exact .nextOut ho (by simpa using hc)
  | tabrd k x =>
    by_cases hx : x.toNat < c.size
    · simp only [execWith, execTabrdWith, indexOk, hx, decide_true, if_true, tabRead_ok] at h
      cases h
      exact .tabrd hx
    · simp [execWith, execTabrdWith, indexOk, hx] at h
  | rdreg j r =>
    obtain ⟨o, ho, h⟩ := onOsc_next h
    split at h
    · next hr => cases h; exact .rdregFree ho hr
    · next hr => cases h; exact .rdreg ho (by simpa using hr)

/-! ### Demanding several tables (rules R71, R72) -/

/-- `GetTable` of each kind of a list, in order. WARMUP's loop is that of all kinds. -/
def demandAll (c : Config) (ks : List Kind) (s : State) : State :=
  ks.foldl (fun s k => getTable c k s) s

theorem warmAll_eq_demandAll (c : Config) (s : State) : warmAll c s = demandAll c allKinds s := rfl

@[simp] theorem demandAll_nil (c : Config) (s : State) : demandAll c [] s = s := rfl

@[simp] theorem demandAll_cons (c : Config) (k : Kind) (ks : List Kind) (s : State) :
    demandAll c (k :: ks) s = demandAll c ks (getTable c k s) := rfl

/-- What every construction keeps, a list of them keeps. -/
theorem demandAll_induction {P : State → Prop} (hP : ∀ k s, P s → P (getTable c k s))
    (ks : List Kind) (hs : P s) : P (demandAll c ks s) :=
  List.foldlRecOn ks _ hs fun s hs k _ => hP k s hs

@[simp] theorem demandAll_oscs (c : Config) (ks : List Kind) (s : State) :
    (demandAll c ks s).oscs = s.oscs :=
  demandAll_induction (P := fun t => t.oscs = s.oscs) (fun k t ht => by simp [ht]) ks rfl

@[simp] theorem demandAll_noiseDraw (c : Config) (ks : List Kind) (s : State) :
    (demandAll c ks s).noiseDraw = s.noiseDraw :=
  demandAll_induction (P := fun t => t.noiseDraw = s.noiseDraw) (fun k t ht => by simp [ht]) ks rfl

@[simp] theorem demandAll_events (c : Config) (ks : List Kind) (s : State) :
    (demandAll c ks s).events = s.events :=
  demandAll_induction (P := fun t => t.events = s.events) (fun k t ht => by simp [ht]) ks rfl

theorem isBuilt_demandAll (c : Config) (ks : List Kind) (s : State) (k : Kind) :
    isBuilt (demandAll c ks s).built k = (isBuilt s.built k || decide (k ∈ ks)) := by
  induction ks generalizing s with
  | nil => simp
  | cons k' ks ih => simp [ih, isBuilt_getTable, Bool.or_assoc]

/-! ### What a command does to the table store (rules R32, R45, R71) -/

/-- The tables a command demands (rule R45). -/
def demandedKinds (s : State) : Instr → List Kind
  | .warmup => allKinds
  | .setwt _ k => [k]
  | .next j => (osc? s j).toList.map Osc.kind
  | .tabrd k _ => [k]
  | _ => []

/-- A command leaves the table store that demanding its tables leaves, and nothing outside the block
changes. -/
theorem Completes.tables (h : Completes c s i t) :
    sameTables (demandAll c (demandedKinds s i) s) t ∧ sameRest s t := by
  cases h with
  | warmup =>
    rw [warmAll_eq_demandAll]
    exact ⟨⟨rfl, rfl⟩, by simp [sameRest]⟩
  | setwt | tabrd => exact ⟨⟨rfl, rfl⟩, by simp [sameRest]⟩
  | next ho | nextOut ho =>
    simp [sameTables, sameRest, demandedKinds, nextUndefined, ho]
  | setsr | setsrOut | setfq | setfqOut | rdreg | rdregFree | oscrst =>
    exact ⟨⟨rfl, rfl⟩, rfl, rfl⟩

/-- No command clears a built flag (rules R19, R32). -/
theorem Completes.isBuilt_of_isBuilt (h : Completes c s i t) {k : Kind}
    (hk : isBuilt s.built k = true) : isBuilt t.built k = true := by
  obtain ⟨⟨-, hbuilt⟩, -⟩ := h.tables
  simp [hbuilt, isBuilt_demandAll, hk]

/-! ### What a command writes to the oscillators (rules R11 to R15, R26, R143) -/

/-- What `undefine` leaves in an oscillator that held `o`. -/
def undefinedOsc (s : State) (o : Osc) : Osc :=
  { o with
    frequency := freeAt s 0
    sampleRate := freeAt s 1
    delta := freeAt s 2
    continuousIndex := freeAt s 3
    undef := true }

theorem undefine_eq (j : BitVec 4) (o : Osc) (s : State) :
    undefine j o s = spendFree 4 (setOsc j (undefinedOsc s o) s) := rfl

/-- Which commands are out of contract on an oscillator that holds `o` (rule R141). -/
def outOfContract (c : Config) (o : Osc) : Instr → Bool
  | .setsr _ f => !setterInContract o f
  | .setfq _ f => !setterInContract o f
  | .next _ => !nextInContract c o
  | _ => false

/-- `OscWrite c o i u`: command `i` may leave the oscillator it addresses, which held `o`, with the
registers `u`. -/
inductive OscWrite (c : Config) (o : Osc) : Instr → Osc → Prop
  | kind {j k} : OscWrite c o (.setwt j k) { o with kind := k }
  | rate {j f} (hc : setterInContract o f = true) :
      OscWrite c o (.setsr j f)
        { o with sampleRate := f, delta := deltaOf c.log2N o.frequency f }
  | freq {j f} (hc : setterInContract o f = true) :
      OscWrite c o (.setfq j f)
        { o with frequency := f, delta := deltaOf c.log2N f o.sampleRate }
  | phase {j} (hc : nextInContract c o = true) :
      OscWrite c o (.next j)
        { o with continuousIndex := advance c.log2N o.continuousIndex o.delta }
  | created {j} : OscWrite c o (.oscrst j) (Osc.created c)
  | undefined {i' : Instr} (s' : State) (hc : outOfContract c o i' = true) :
      OscWrite c o i' (undefinedOsc s' o)

/-- A command writes at most the oscillator it addresses, and that one only as `OscWrite` lists. -/
theorem Completes.oscs (h : Completes c s i t) :
    t.oscs = s.oscs ∨ ∃ j o u, addressed i = some j ∧ osc? s j = some o
      ∧ t.oscs = s.oscs.set j.toNat u ∧ OscWrite c o i u := by
  cases h with
  | warmup => exact .inl (by simp [warmAll_eq_demandAll])
  | tabrd => exact .inl (by simp)
  | rdreg | rdregFree => exact .inl rfl
  | setwt ho => exact .inr ⟨_, _, _, rfl, ho, by simp, .kind⟩
  | setsr ho hc => exact .inr ⟨_, _, _, rfl, ho, rfl, .rate hc⟩
  | setfq ho hc => exact .inr ⟨_, _, _, rfl, ho, rfl, .freq hc⟩
  | setsrOut ho hc | setfqOut ho hc =>
    exact .inr ⟨_, _, _, rfl, ho, rfl, .undefined s (by simp [outOfContract, hc])⟩
  | next ho hc => exact .inr ⟨_, _, _, rfl, ho, by simp, .phase hc⟩
  | @nextOut j o ho hc =>
    exact .inr ⟨j, o, undefinedOsc (getTable c o.kind s) o, rfl, ho,
      by simp [nextUndefined, undefine_eq], .undefined _ (by simp [outOfContract, hc])⟩
  | oscrst ho => exact .inr ⟨_, _, _, rfl, ho, rfl, .created⟩

/-- Rule R26: an oscillator that a command does not address keeps its registers and its mark. -/
theorem Completes.osc?_of_not_addressed (h : Completes c s i t) {j' : BitVec 4}
    (hj : addressed i ≠ some j') : osc? t j' = osc? s j' := by
  rcases h.oscs with hoscs | ⟨j, o, u, haddr, ho, hoscs, -⟩
  · rw [osc?, hoscs, osc?]
  · have hne : j' ≠ j := fun e => hj (e ▸ haddr)
    have hset : osc? t j' = osc? (setOsc j u s) j' := by rw [osc?, hoscs, osc?, setOsc_oscs]
    rw [hset, osc?_setOsc ho, if_neg hne]

/-- The registers of one oscillator before and after a command. -/
theorem Completes.osc?_cases (h : Completes c s i t) {j : BitVec 4} {o u : Osc}
    (ho : osc? s j = some o) (hu : osc? t j = some u) :
    u = o ∨ addressed i = some j ∧ OscWrite c o i u := by
  by_cases haddr : addressed i = some j
  · rcases h.oscs with hoscs | ⟨j', o', u', haddr', ho', hoscs, hw⟩
    · rw [osc?, hoscs, ← osc?, ho] at hu
      exact .inl (Option.some.inj hu).symm
    · obtain rfl : j = j' := Option.some.inj (haddr.symm.trans haddr')
      obtain rfl : o = o' := Option.some.inj (ho.symm.trans ho')
      have hset : osc? t j = osc? (setOsc j u' s) j := by rw [osc?, hoscs, osc?, setOsc_oscs]
      rw [hset, osc?_setOsc ho, if_pos rfl] at hu
      exact .inr ⟨haddr, Option.some.inj hu ▸ hw⟩
  · rw [h.osc?_of_not_addressed haddr, ho] at hu
    exact .inl (Option.some.inj hu).symm

end Sys2Proof.Machine
end

section
/-! PROOFS. The phase stays in range (rules R109, R129, R131): sums and differences of data that are
not negative, rounded, and the one conditional subtraction of the table size. -/

namespace Sys2Proof

/-! ### Magnitudes and their significands -/

/-- Every magnitude is a significand of 24 bits, or fewer at the least exponent, times a power of two
(rule R120). -/
theorem exists_significand (x : F32) :
    ∃ m e, mag x = m * 2 ^ e ∧ m < 2 ^ 24 ∧ (e = 0 ∨ 2 ^ 23 ≤ m) := by
  have hf : fracField x < 2 ^ 23 := (x.extractLsb' 0 23).isLt
  unfold mag
  split
  · exact ⟨fracField x, 0, by simp, by omega, .inl rfl⟩
  · exact ⟨2 ^ 23 + fracField x, expField x - 1, rfl, by omega, .inr (by omega)⟩

/-- Below `2^(24 + k)` the unit in the last place is at most `2^k`. -/
theorem exists_significand_of_lt {x : F32} {k : Nat} (h : mag x < 2 ^ 24 * 2 ^ k) :
    ∃ m e, mag x = m * 2 ^ e ∧ m < 2 ^ 24 ∧ e ≤ k := by
  obtain ⟨m, e, hmag, hm, hnorm⟩ := exists_significand x
  refine ⟨m, e, hmag, hm, Nat.le_of_not_lt fun he => ?_⟩
  have hpow : 2 ^ (k + 1) ≤ 2 ^ e := Nat.pow_le_pow_right two_pos he
  have hmul := Nat.mul_le_mul (show 2 ^ 23 ≤ m by omega) hpow
  rw [Nat.pow_succ] at hmul
  omega

/-- The greatest magnitude below a power of two has 24 one bits. -/
theorem mag_le_of_lt {x : F32} {k : Nat} (h : mag x < 2 ^ 24 * 2 ^ k) :
    mag x ≤ (2 ^ 24 - 1) * 2 ^ k := by
  obtain ⟨m, e, hmag, hm, he⟩ := exists_significand_of_lt h
  rw [hmag]
  exact Nat.mul_le_mul (by omega) (Nat.pow_le_pow_right two_pos he)

/-- Between two powers of two that follow each other the unit in the last place is fixed. -/
theorem exists_significand_of_binade {x : F32} {k : Nat} (hlo : 2 ^ 23 * 2 ^ k ≤ mag x)
    (hhi : mag x < 2 ^ 24 * 2 ^ k) : ∃ m, mag x = m * 2 ^ k ∧ m < 2 ^ 24 := by
  obtain ⟨m, e, hmag, hm, he⟩ := exists_significand_of_lt hhi
  rcases he.eq_or_lt with rfl | hlt
  · exact ⟨m, hmag, hm⟩
  · have hpow : 2 ^ (e + 1) ≤ 2 ^ k := Nat.pow_le_pow_right two_pos hlt
    have hmul := Nat.mul_lt_mul_of_pos_right hm (Nat.two_pow_pos e)
    rw [Nat.pow_succ] at hpow
    omega

theorem isFinite_of_mag_lt {x : F32} {k : Nat} (hk : k ≤ 254) (h : mag x < 2 ^ k) :
    isFinite x = true := by
  by_contra hx
  have hexp : expField x = 255 := by simpa [isFinite] using hx
  have hbig : 2 ^ 23 * 2 ^ 254 ≤ mag x := by
    rw [mag, if_neg (by omega), hexp]
    exact Nat.mul_le_mul_right _ (by omega)
  have hpow : 2 ^ k ≤ 2 ^ 254 := Nat.pow_le_pow_right two_pos hk
  omega

/-- A magnitude of at most 24 significant bits is its own rounding. -/
theorem mag_roundMag_of_significand (neg : Bool) {m e : Nat} (hm : m < 2 ^ 24) (he : e ≤ 253) :
    mag (pack neg (roundMag (m * 2 ^ e) 1)) = m * 2 ^ e := by
  have hlt : m * 2 ^ e / 1 < 2 ^ (24 + e) := by
    rw [Nat.div_one, Nat.pow_add]; exact Nat.mul_lt_mul_of_pos_right hm (by positivity)
  have hshift := ulpShift_le hlt
  have hmag := mag_roundMag neg one_pos (hshift.trans he)
  rw [roundSig] at hmag
  generalize ulpShift (m * 2 ^ e / 1) = w at hmag hshift
  have hsplit : m * 2 ^ e = m * 2 ^ (e - w) * (1 * 2 ^ w) := by
    rw [Nat.one_mul, Nat.mul_assoc, ← Nat.pow_add, Nat.sub_add_cancel hshift]
  have hround : roundHalfEven (m * 2 ^ e) (1 * 2 ^ w) = m * 2 ^ (e - w) := by
    rw [hsplit, roundHalfEven_mul _ (by positivity)]
  rw [hmag, hround, hsplit, Nat.one_mul]

/-- Rounding does not pass the greatest magnitude below a power of two. -/
theorem mag_roundMag_le (neg : Bool) {n k : Nat} (hn : n ≤ (2 ^ 24 - 1) * 2 ^ k) (hk : k ≤ 253) :
    mag (pack neg (roundMag n 1)) ≤ (2 ^ 24 - 1) * 2 ^ k := by
  have hpos : 0 < 2 ^ k := by positivity
  have hshift : ulpShift (n / 1) ≤ k := ulpShift_le (by rw [Nat.div_one, Nat.pow_add]; omega)
  rw [mag_roundMag neg one_pos (hshift.trans hk)]
  rcases hshift.eq_or_lt with heq | hlt
  · have hsig : roundSig n 1 ≤ 2 ^ 24 - 1 := by
      rw [roundSig, heq, Nat.one_mul]
      exact (roundHalfEven_mem hpos (a := 0) (by simp) hn).2
    rw [heq]
    exact Nat.mul_le_mul_right _ hsig
  · obtain ⟨-, hsig⟩ := roundSig_bounds n one_pos
    have hpow : 2 ^ (ulpShift (n / 1) + 1) ≤ 2 ^ k := Nat.pow_le_pow_right two_pos hlt
    have := Nat.mul_le_mul_right (2 ^ ulpShift (n / 1)) hsig
    rw [Nat.pow_succ] at hpow
    omega

/-! ### Sums and differences that are not negative (rule R122) -/

/-- The sum of finite data, where it is not negative, is the rounded sum. -/
theorem units_fadd {x y : F32} {n : Nat} (hx : isFinite x = true) (hy : isFinite y = true)
    (h : units x + units y = n) : units (fadd x y) = mag (pack false (roundMag n 1)) := by
  have hadd : fadd x y = if units x + units y = 0 then zero (signBit x && signBit y)
      else roundUnits (units x + units y) 1 := by
    simp [fadd, addWith, isNaN_of_isFinite, isInf_of_isFinite, hx, hy]
  have hneg : decide ((n : Int) < 0) = false := by simp
  rw [hadd, h]
  split
  · next h0 =>
    obtain rfl : n = 0 := by exact_mod_cast h0
    rw [units_zero]
    decide
  · rw [units, signBit_roundUnits, hneg, roundUnits, hneg, Int.natAbs_natCast]
    rfl

/-- A difference of finite data is the sum with the negated datum. -/
theorem fsub_eq_fadd_fneg {x y : F32} (hx : isFinite x = true) (hy : isFinite y = true) :
    fsub x y = fadd x (fneg y) := by
  have hny : isFinite (fneg y) = true := by rw [isFinite_fneg, hy]
  simp [fsub, fadd, addWith, isNaN_of_isFinite, isInf_of_isFinite, hx, hy, hny]

/-! ### Data in range (rule R126) -/

theorem mag_of_units {x : F32} {n : Nat} (h : units x = n) : mag x = n := by
  rw [← natAbs_units, h, Int.natAbs_natCast]

theorem inRange_iff {L : Nat} {x : F32} :
    inRange L x = true ↔ isFinite x = true ∧ ∃ n : Nat, n < 2 ^ (L + 149) ∧ units x = n := by
  have hbound : ((2 ^ L * oneUnits : Nat) : Int) = ((2 ^ (L + 149) : Nat) : Int) := by
    rw [oneUnits, Nat.pow_add]
  simp only [inRange, Bool.and_eq_true, decide_eq_true_eq, hbound, and_assoc]
  refine and_congr_right fun _ => ⟨fun ⟨h0, hlt⟩ => ?_, ?_⟩
  · lift units x to Nat using h0 with n
    exact ⟨n, by exact_mod_cast hlt, rfl⟩
  · rintro ⟨n, hn, h⟩
    rw [h]
    exact ⟨Int.natCast_nonneg n, by exact_mod_cast hn⟩

/-- A whole number of units below `N`, of a legal `N`, is in range. -/
theorem inRange_of_units {L n : Nat} {x : F32} (hL : L ≤ 23) (h : units x = n)
    (hn : n < 2 ^ (L + 149)) : inRange L x = true :=
  inRange_iff.2 ⟨isFinite_of_mag_lt (k := L + 149) (by omega) (by rwa [mag_of_units h]), n, hn, h⟩

theorem inRange_zero (L : Nat) (neg : Bool) : inRange L (zero neg) = true :=
  inRange_iff.2 ⟨isFinite_zero neg, 0, by positivity, units_zero neg⟩

/-- The table size as a datum is exact (rule R124). -/
theorem sizeF_exact {L : Nat} (hL : L ≤ 23) :
    isFinite (sizeF L) = true ∧ units (sizeF L) = (2 ^ (L + 149) : Nat) := by
  have hone : 2 ^ L * oneUnits = 2 ^ 23 * 2 ^ (L + 126) := by rw [oneUnits]; ring
  have hmag : mag (sizeF L) = 2 ^ (L + 149) := by
    rw [sizeF, i2f, hone, mag_roundMag_of_significand false (by decide) (by omega)]; ring
  have hsign : signBit (sizeF L) = false :=
    signBit_pack _ ((roundMag_le _ _).trans_lt (by decide))
  refine ⟨isFinite_of_mag_lt (k := L + 150) (by omega) ?_, ?_⟩
  · rw [hmag]; exact Nat.pow_lt_pow_right one_lt_two (by omega)
  · rw [units, hsign, hmag]; rfl

/-! ### The advance (rules R109, R129, R131) -/

/-- Rule R131, first half: the rounded sum of two data in range is below `2N`. -/
theorem units_fadd_lt {L : Nat} {x y : F32} (hL : L ≤ 23) (hx : inRange L x = true)
    (hy : inRange L y = true) : ∃ n : Nat, n < 2 ^ (L + 150) ∧ units (fadd x y) = n := by
  obtain ⟨hfx, a, ha, hux⟩ := inRange_iff.1 hx
  obtain ⟨hfy, b, hb, huy⟩ := inRange_iff.1 hy
  have hsize : 2 ^ (L + 149) = 2 ^ 24 * 2 ^ (L + 125) := by ring
  have hale : a ≤ (2 ^ 24 - 1) * 2 ^ (L + 125) :=
    mag_of_units hux ▸ mag_le_of_lt (by rwa [mag_of_units hux, ← hsize])
  have hble : b ≤ (2 ^ 24 - 1) * 2 ^ (L + 125) :=
    mag_of_units huy ▸ mag_le_of_lt (by rwa [mag_of_units huy, ← hsize])
  have hdouble : 2 ^ (L + 126) = 2 * 2 ^ (L + 125) := by ring
  have hsum : a + b ≤ (2 ^ 24 - 1) * 2 ^ (L + 126) := by omega
  refine ⟨_, ?_, units_fadd (n := a + b) hfx hfy (by rw [hux, huy]; rfl)⟩
  calc mag (pack false (roundMag (a + b) 1))
      ≤ (2 ^ 24 - 1) * 2 ^ (L + 126) := mag_roundMag_le false hsum (by omega)
    _ < 2 ^ 24 * 2 ^ (L + 126) := Nat.mul_lt_mul_of_pos_right (by decide) (by positivity)
    _ = 2 ^ (L + 150) := by ring

/-- Rule R129: from a datum of at least `N` and below `2N` the subtraction of `N` is exact. -/
theorem units_fsub_sizeF {L n : Nat} {x : F32} (hL : L ≤ 23) (hx : units x = n)
    (hlo : 2 ^ (L + 149) ≤ n) (hhi : n < 2 ^ (L + 150)) :
    units (fsub x (sizeF L)) = (n - 2 ^ (L + 149) : Nat) := by
  obtain ⟨hfs, hus⟩ := sizeF_exact hL
  have hmag := mag_of_units hx
  have hsize : 2 ^ (L + 149) = 2 ^ 23 * 2 ^ (L + 126) := by ring
  have hdouble : 2 ^ (L + 150) = 2 ^ 24 * 2 ^ (L + 126) := by ring
  have hfx : isFinite x = true := isFinite_of_mag_lt (k := L + 150) (by omega) (hmag ▸ hhi)
  obtain ⟨m, hm, hlt⟩ := exists_significand_of_binade (x := x) (k := L + 126)
    (by omega) (by omega)
  have hsig : n - 2 ^ (L + 149) = (m - 2 ^ 23) * 2 ^ (L + 126) := by
    rw [← hmag, hm, hsize, Nat.sub_mul]
  have hdiff : units x + units (fneg (sizeF L)) = (n - 2 ^ (L + 149) : Nat) := by
    rw [units_fneg, hx, hus, Nat.cast_sub hlo]; rfl
  rw [fsub_eq_fadd_fneg hfx hfs, units_fadd hfx (by rw [isFinite_fneg, hfs]) hdiff, hsig,
    mag_roundMag_of_significand false (by omega) (by omega)]

/-- Rule R131: the phase stays in range. -/
theorem inRange_advance {L : Nat} {x y : F32} (hL : L ≤ 23) (hx : inRange L x = true)
    (hy : inRange L y = true) : inRange L (advance L x y) = true := by
  obtain ⟨n, hn, hsum⟩ := units_fadd_lt hL hx hy
  obtain ⟨hfs, hus⟩ := sizeF_exact hL
  have hfsum : isFinite (fadd x y) = true :=
    isFinite_of_mag_lt (k := L + 150) (by omega) (by rwa [mag_of_units hsum])
  have hge : fge (fadd x y) (sizeF L) = true ↔ 2 ^ (L + 149) ≤ n := by
    rw [fge, isNaN_of_isFinite hfs, isNaN_of_isFinite hfsum, hus, hsum]
    simp only [Bool.not_false, Bool.true_and, decide_eq_true_eq, Nat.cast_le]
  unfold advance
  split
  · next h =>
    have hdouble : 2 ^ (L + 150) = 2 * 2 ^ (L + 149) := by ring
    exact inRange_of_units hL (units_fsub_sizeF hL hsum (hge.1 h) hn) (by omega)
  · next h => exact inRange_of_units hL hsum (Nat.lt_of_not_le (mt hge.2 h))

end Sys2Proof
end

section
/-! PROOFS. The invariant holds at reset and every step keeps it (rules R14, R15, R19, R20,
R32, R131). -/

namespace Sys2Proof.Machine

variable {c : Config} {i : Instr} {s t : State}

/-! ### Reset (rules R25, R161) -/

theorem oscGood_created (hc : Legal c) : oscGood c (Osc.created c) := fun _ =>
  ⟨hc.defaultFreq_pos, hc.defaultRate_pos, rfl, inRange_zero _ _⟩

/-- A state in which every oscillator is as created and no table word is written is good. -/
theorem inv_of_created (hc : Legal c) (hoscs : s.oscs = List.replicate c.numOsc (Osc.created c))
    (hbuilt : s.built = Built.none) (htab : s.tab = []) : Inv c s where
  tab_wf := by rw [htab]; exact List.Pairwise.nil
  tab_inside := by simp [htab]
  tables := fun k i _ => by simp [htab, hbuilt, listedWord]
  oscs_length := by simp [hoscs]
  oscs_good := fun o ho => by
    rw [hoscs] at ho
    exact List.eq_of_mem_replicate ho ▸ oscGood_created hc

theorem inv_hardReset (hc : Legal c) (s : State) : Inv c (hardReset c s) :=
  inv_of_created hc rfl rfl rfl

/-! ### The table store (rules R19, R20, R32) -/

theorem tab_inside_build (h : ∀ x ∈ s.tab, x.1 < tabWords c) (k : Kind) :
    ∀ x ∈ (build c k s).tab, x.1 < tabWords c := by
  intro x hx
  rcases mem_putTable hx with hx | ⟨hlo, hhi⟩
  · exact h x hx
  · have hx : x.1 = tableAddr c k (x.1 - tableAddr c k 0) := by
      rw [tableAddr_add c k (x.1 - _)]; omega
    rw [hx]
    exact tableAddr_lt c k (by omega)

theorem tableGood_build (k : Kind) {k' : Kind} (h : tableGood c s k') :
    tableGood c (build c k s) k' := by
  intro n hn
  by_cases hk : k' = k
  · subst hk
    rw [build_word_inside c k' s hn, build_built, isBuilt_setBuilt_same]
    rfl
  · rw [build_word_outside c k s (tableAddr_outside c hk hn), h n hn, build_built,
      isBuilt_setBuilt, decide_eq_false hk, Bool.or_false, build_noiseDraw]

/-- A construction keeps the invariant. -/
theorem inv_getTable (h : Inv c s) (k : Kind) : Inv c (getTable c k s) := by
  unfold getTable
  split
  · exact h
  · exact ⟨build_tab_wf h.tab_wf c k, tab_inside_build h.tab_inside k,
      fun k' => tableGood_build k (h.tables k'), h.oscs_length, h.oscs_good⟩

/-! ### The oscillators (rules R14, R15, R131) -/

theorem oscGood_of_oscWrite {o u : Osc} (hc : Legal c) (ho : oscGood c o) (h : OscWrite c o i u) :
    oscGood c u := by
  cases h with
  | kind => exact ho
  | rate hin =>
    intro hu
    obtain ⟨hfreq, -, -, hphase⟩ := ho hu
    exact ⟨hfreq, (Bool.and_eq_true_iff.1 hin).2, rfl, hphase⟩
  | freq hin =>
    intro hu
    obtain ⟨-, hrate, -, hphase⟩ := ho hu
    exact ⟨(Bool.and_eq_true_iff.1 hin).2, hrate, rfl, hphase⟩
  | phase hin =>
    intro hu
    obtain ⟨hfreq, hrate, hdelta, hphase⟩ := ho hu
    have hd : inRange c.log2N o.delta = true := (Bool.and_eq_true_iff.1 hin).2
    exact ⟨hfreq, hrate, hdelta, inRange_advance hc.log2N_hi hphase hd⟩
  | created => exact oscGood_created hc
  | undefined => exact fun hu => absurd hu (by simp [undefinedOsc])

/-- Every command keeps the invariant. -/
theorem Completes.inv (hc : Legal c) (h : Completes c s i t) (hs : Inv c s) : Inv c t := by
  obtain ⟨⟨htab, hbuilt⟩, hdraw, -⟩ := h.tables
  have hd : Inv c (demandAll c (demandedKinds s i) s) :=
    demandAll_induction (P := Inv c) (fun k _ hs => inv_getTable hs k) _ hs
  refine ⟨htab ▸ hd.tab_wf, htab ▸ hd.tab_inside, fun k n hn => ?_, ?_, ?_⟩
  · rw [htab, hbuilt, hdraw, hd.tables k n hn, demandAll_noiseDraw]
  · rcases h.oscs with hoscs | ⟨j, o, u, -, -, hoscs, -⟩
    · rw [hoscs, hs.oscs_length]
    · rw [hoscs, List.length_set, hs.oscs_length]
  · intro u hu
    rcases h.oscs with hoscs | ⟨j, o, u', -, ho, hoscs, hw⟩
    · exact hs.oscs_good u (hoscs ▸ hu)
    · rcases List.mem_or_eq_of_mem_set (hoscs ▸ hu) with hu | rfl
      · exact hs.oscs_good u hu
      · exact oscGood_of_oscWrite hc (hs.oscs_good o (List.mem_of_getElem? ho)) hw

/-- What one step can do: wait, reset, or run the command of a word that decodes. -/
theorem step_cases (h : step s = .next t) :
    (s.events = [] ∧ t = s)
      ∨ (∃ rest, s.events = .rst :: rest ∧ t = hardReset Config.hw (takeEvent rest s))
      ∨ ∃ w rest i, s.events = .cmd w :: rest ∧ decode w = .ok i
        ∧ Completes Config.hw (takeEvent rest s) i t := by
  unfold step at h
  split at h
  · next he => cases h; exact .inl ⟨he, rfl⟩
  · next rest he => cases h; exact .inr (.inl ⟨rest, he, rfl⟩)
  · next w rest he =>
    split at h
    · next i hi =>
      rw [exec_eq_execWith] at h
      exact .inr (.inr ⟨w, rest, i, he, hi, .of_execWith h⟩)
    · cases h

theorem inv_takeEvent (h : Inv c s) (rest : List HostEvent) : Inv c (takeEvent rest s) :=
  ⟨h.tab_wf, h.tab_inside, h.tables, h.oscs_length, h.oscs_good⟩

end Sys2Proof.Machine

namespace Sys2Proof

open Machine

/-- Settles O12: every oscillator as created is good for legal parameters, and no word is written. -/
theorem resetMeetsTheInvariant : Obligations.ResetMeetsTheInvariant := by
  intro c hc
  exact ⟨inv_of_created hc rfl rfl rfl, inv_hardReset hc⟩

/-- Settles O13, by the cases of a step: a command only builds tables and writes the oscillator it
addresses, and this hardware's parameters are legal. -/
theorem everyStepKeepsTheInvariant : Obligations.EveryStepKeepsTheInvariant := by
  intro s t hs h
  rcases step_cases h with ⟨-, rfl⟩ | ⟨rest, -, rfl⟩ | ⟨w, rest, i, -, -, hi⟩
  · exact hs
  · exact inv_hardReset hardwareParametersAreLegal _
  · exact hi.inv hardwareParametersAreLegal (inv_takeEvent hs rest)

end Sys2Proof
end

section
/-! PROOFS. The oscillators' registers and who writes them (rules R11 to R15, R21, R26), and the
registers BUILT and GEOM (rules R22, R23, R25). -/

namespace Sys2Proof.Machine

/-! ### Register BUILT (rule R22) -/

/-- Bit `k` of register BUILT is the flag of the kind of code `k`. -/
theorem getLsbD_builtWord (b : Built) (k : Kind) :
    (builtWord b).getLsbD (kindCode k) = isBuilt b k := by
  obtain ⟨b0, b1, b2, b3, b4⟩ := b
  revert b0 b1 b2 b3 b4
  cases k <;> decide

theorem builtWord_shift (b : Built) : builtWord b >>> 5 = 0#32 := by
  obtain ⟨b0, b1, b2, b3, b4⟩ := b
  revert b0 b1 b2 b3 b4
  decide

/-- Every bit that is set is the bit of some kind. -/
theorem exists_kind_of_getLsbD {b : Built} {n : Nat} (h : (builtWord b).getLsbD n = true) :
    ∃ k, kindCode k = n := by
  have hn : n < 5 := by
    by_contra hn
    have hshift : (builtWord b >>> 5).getLsbD (n - 5) = true := by
      rw [BitVec.getLsbD_ushiftRight, Nat.add_sub_cancel' (by omega), h]
    simp [builtWord_shift] at hshift
  match n, hn with
  | 0, _ => exact ⟨.sine, rfl⟩
  | 1, _ => exact ⟨.triangle, rfl⟩
  | 2, _ => exact ⟨.saw, rfl⟩
  | 3, _ => exact ⟨.square, rfl⟩
  | 4, _ => exact ⟨.noise, rfl⟩

/-- With all five flags set the register reads `0x1F`. -/
theorem builtWord_of_all {b : Built} (h : ∀ k, isBuilt b k = true) : builtWord b = 0x1F#32 := by
  have hb : b = ⟨true, true, true, true, true⟩ := by
    obtain ⟨b0, b1, b2, b3, b4⟩ := b
    exact congr (congr (congr (congr (congrArg Built.mk (h .sine)) (h .triangle)) (h .saw))
      (h .square)) (h .noise)
  rw [hb]
  decide

/-- No command clears a bit of register BUILT. -/
theorem Completes.builtWord_bit_stays {c : Config} {i : Instr} {s t : State} (h : Completes c s i t)
    {n : Nat} (hn : (builtWord s.built).getLsbD n = true) :
    (builtWord t.built).getLsbD n = true := by
  obtain ⟨k, rfl⟩ := exists_kind_of_getLsbD hn
  rw [getLsbD_builtWord] at hn ⊢
  exact h.isBuilt_of_isBuilt hn

/-! ### Register GEOM (rule R23) -/

theorem toNat_geomWord {c : Config} (hL : c.log2N < 2 ^ 8) (hn : c.numOsc < 2 ^ 24) :
    (geomWord c).toNat = c.numOsc * 2 ^ 8 + c.log2N := by
  have hlow : c.log2N % 2 ^ 32 = c.log2N := by omega
  have hhigh : (c.numOsc % 2 ^ 32) <<< 8 % 2 ^ 32 = c.numOsc <<< 8 := by omega
  rw [geomWord, BitVec.toNat_or, BitVec.toNat_shiftLeft, BitVec.toNat_ofNat, BitVec.toNat_ofNat,
    hlow, hhigh, ← Nat.shiftLeft_add_eq_or_of_lt hL, Nat.shiftLeft_eq]

/-- The four fields of register GEOM. -/
theorem geomWord_fields {c : Config} (hL : c.log2N < 2 ^ 5) (hn : c.numOsc < 2 ^ 5) :
    ((geomWord c).extractLsb' 0 5).toNat = c.log2N ∧ (geomWord c).extractLsb' 5 3 = 0
      ∧ ((geomWord c).extractLsb' 8 5).toNat = c.numOsc ∧ (geomWord c).extractLsb' 13 19 = 0 := by
  have hword := toNat_geomWord (c := c) (by omega) (by omega)
  refine ⟨?_, BitVec.eq_of_toNat_eq ?_, ?_, BitVec.eq_of_toNat_eq ?_⟩ <;>
    rw [BitVec.extractLsb'_toNat, hword, Nat.shiftRight_eq_div_pow]
  · omega
  · show _ = 0
    omega
  · omega
  · show _ = 0
    omega

/-! ### RDREG of a register that no condition takes away (rules R95, R143) -/

theorem exec_rdreg_of_not_float {j : BitVec 4} {r : Reg} {s : State} {o : Osc}
    (ho : osc? s j = some o) (hr : isFloatReg r = false) :
    exec (.rdreg j r) s = .next (respond (regValue Config.hw s o r) s) := by
  rw [exec_eq_execWith]
  exact (Completes.rdreg ho (by rw [hr, Bool.and_false])).execWith_eq

end Sys2Proof.Machine

namespace Sys2Proof

open Machine

/-- Settles O48: each bit is its kind's flag, WARMUP sets every flag and no command clears one. -/
theorem builtRegisterFollowsTheFlags : Obligations.BuiltRegisterFollowsTheFlags := by
  refine ⟨fun b => ⟨getLsbD_builtWord b .sine, getLsbD_builtWord b .triangle,
    getLsbD_builtWord b .saw, getLsbD_builtWord b .square, getLsbD_builtWord b .noise,
    builtWord_shift b⟩, by decide, ?_, ?_, fun j s o ho => exec_rdreg_of_not_float ho rfl⟩
  · intro s t h
    cases h
    exact builtWord_of_all (isBuilt_warmAll _ s)
  · intro i s t n h hn
    rw [exec_eq_execWith] at h
    exact (Completes.of_execWith h).builtWord_bit_stays hn

/-- Settles O49: the word is `NUM_OSC * 2^8 + LOG2N`, and RDREG answers it in or out of contract. -/
theorem geomRegisterReportsTheParameters : Obligations.GeomRegisterReportsTheParameters :=
  ⟨fun _ hL _ hn => geomWord_fields (by omega) (by omega),
    fun _ _ _ ho => exec_rdreg_of_not_float ho rfl⟩

/-- Settles O57: each listed command completes, and none of them addresses the other oscillator. -/
theorem otherOscillatorsAreUntouched : Obligations.OtherOscillatorsAreUntouched := by
  intro c j j' s t hne h
  have hj : some j ≠ some j' := fun e => hne (Option.some.inj e).symm
  rcases h with ⟨k, h⟩ | ⟨f, h⟩ | ⟨f, h⟩ | h | ⟨r, h⟩ | h | h | ⟨k, x, h⟩
  · exact (Completes.of_execWith (i := .setwt j k) h).osc?_of_not_addressed hj
  · exact (Completes.of_execWith (i := .setsr j f) h).osc?_of_not_addressed hj
  · exact (Completes.of_execWith (i := .setfq j f) h).osc?_of_not_addressed hj
  · exact (Completes.of_execWith (i := .next j) h).osc?_of_not_addressed hj
  · exact (Completes.of_execWith (i := .rdreg j r) h).osc?_of_not_addressed hj
  · exact (Completes.of_execWith (i := .oscrst j) h).osc?_of_not_addressed hj
  · exact (Completes.of_execWith (i := .warmup) h).osc?_of_not_addressed nofun
  · exact (Completes.of_execWith (i := .tabrd k x) h).osc?_of_not_addressed nofun

/-- Settles O58: an oscillator that changes is the one the command addresses, and each command writes
its own registers only. -/
theorem registersHaveTheirListedWriters : Obligations.RegistersHaveTheirListedWriters := by
  intro i j s t o u h ho hu _ hdef
  rw [exec_eq_execWith] at h
  rcases (Completes.of_execWith h).osc?_cases ho hu with rfl | ⟨haddr, hw⟩
  · exact ⟨absurd rfl, absurd rfl, absurd rfl, absurd rfl, absurd rfl⟩
  · cases hw with
    | kind | rate | freq | phase | created =>
      obtain rfl := Option.some.inj haddr
      simp
    | undefined s' => exact absurd hdef (by simp [undefinedOsc])

/-- Settles O9: the one oscillator's values by evaluation; nothing is built and no word written. -/
theorem resetHoldsTheListedValues : Obligations.ResetHoldsTheListedValues :=
  ⟨by decide +kernel, isBuilt_none, fun _ => rfl, rfl⟩

end Sys2Proof
end

section
/-! PROOFS. The table store under the commands (rules R30, R32, R41, R45, R71): where the tables lie,
what a construction leaves of a built one, and which command demands which. With them what every
command does at the ports: no fault (rules R44, R140), and how many responses (rule R54). -/

namespace Sys2Proof.Machine

variable {c : Config} {i : Instr} {s t : State}

/-! ### Addresses (rule R30) -/

theorem memRead_outside {a : Nat} (h : tabWords c ≤ a) :
    memRead c s a = .error .outsideTableSpace :=
  if_neg (Nat.not_lt_of_le h)

/-! ### Built tables keep their words (rules R32, R41) -/

/-- Demanding a table, the same or another, leaves the words of a built one. -/
theorem getTable_word_of_built {k : Kind} (hk : isBuilt s.built k = true) {n : Nat}
    (hn : n < c.size) (k' : Kind) :
    listedWord (getTable c k' s).tab (tableAddr c k n) = listedWord s.tab (tableAddr c k n) := by
  cases hk' : isBuilt s.built k' with
  | true => rw [getTable_of_built hk']
  | false =>
    have hne : k ≠ k' := fun e => by simp [← e, hk] at hk'
    rw [getTable_of_unbuilt hk', build_word_outside c k' s (tableAddr_outside c hne hn)]

theorem demandAll_word_of_built {k : Kind} (hk : isBuilt s.built k = true) {n : Nat}
    (hn : n < c.size) (ks : List Kind) :
    listedWord (demandAll c ks s).tab (tableAddr c k n) = listedWord s.tab (tableAddr c k n) := by
  induction ks generalizing s with
  | nil => rfl
  | cons k' ks ih =>
    rw [demandAll_cons, ih (by simp [isBuilt_getTable, hk]), getTable_word_of_built hk hn]

/-- No command changes a word of a built table. -/
theorem Completes.word_of_built (h : Completes c s i t) {k : Kind} (hk : isBuilt s.built k = true)
    {n : Nat} (hn : n < c.size) :
    listedWord t.tab (tableAddr c k n) = listedWord s.tab (tableAddr c k n) := by
  obtain ⟨⟨htab, -⟩, -⟩ := h.tables
  rw [htab, demandAll_word_of_built hk hn]

/-! ### Who builds a table (rules R45, R71) -/

/-- A table that a command builds is one it demands. -/
theorem Completes.mem_demandedKinds (h : Completes c s i t) {k : Kind}
    (hs : isBuilt s.built k = false) (ht : isBuilt t.built k = true) : k ∈ demandedKinds s i := by
  obtain ⟨⟨-, hbuilt⟩, -⟩ := h.tables
  simpa [hbuilt, isBuilt_demandAll, hs] using ht

/-- The commands that demand the table of a kind. -/
theorem demands_of_mem_demandedKinds {k : Kind} (h : k ∈ demandedKinds s i) :
    i = .warmup ∨ (∃ j, i = .setwt j k) ∨ (∃ index, i = .tabrd k index)
      ∨ ∃ j o, i = .next j ∧ osc? s j = some o ∧ o.kind = k := by
  cases i with
  | warmup => exact .inl rfl
  | setwt j k' =>
    obtain rfl := List.mem_singleton.1 h
    exact .inr (.inl ⟨j, rfl⟩)
  | tabrd k' index =>
    obtain rfl := List.mem_singleton.1 h
    exact .inr (.inr (.inl ⟨index, rfl⟩))
  | next j =>
    obtain ⟨o, ho, hok⟩ := List.mem_map.1 h
    exact .inr (.inr (.inr ⟨j, o, rfl, Option.mem_toList.1 ho, hok⟩))
  | setsr | setfq | rdreg | oscrst => cases h

/-! ### Faults (rules R44, R140) -/

theorem onOsc_ne_fault {run : Osc → Host.Outcome State Fault Refusal} {f : Fault} (j : BitVec 4)
    (h : ∀ o, run o ≠ .fault f) : onOsc j s run ≠ .fault f := by
  cases ho : osc? s j with
  | none => rw [onOsc_none ho]; nofun
  | some o => rw [onOsc_some ho]; exact h o

/-- A command that reads TAB reads inside it: NEXT at masked indices, TABRD at an index it has checked.
Every other command reads none of it. -/
theorem execWith_ne_fault (c : Config) (i : Instr) (s : State) (f : Fault) :
    execWith c i s ≠ .fault f := by
  cases i with
  | warmup => nofun
  | setwt j | oscrst j => exact onOsc_ne_fault j nofun
  | setsr j | setfq j | rdreg j =>
    refine onOsc_ne_fault j fun o => ?_
    split <;> nofun
  | next j =>
    refine onOsc_ne_fault j fun o => ?_
    rw [nextSample_eq]
    split <;> nofun
  | tabrd k x =>
    by_cases hx : x.toNat < c.size
    · rw [(Completes.tabrd hx).execWith_eq]
      nofun
    · simp [execWith, execTabrdWith, indexOk, hx]

/-! ### Responses (rules R39, R54) -/

@[simp] theorem demandAll_responses (c : Config) (ks : List Kind) (s : State) :
    (demandAll c ks s).responses = s.responses :=
  demandAll_induction (P := fun t => t.responses = s.responses) (fun k t ht => by simp [ht]) ks rfl

/-- An answering command appends one word to the response stream, another command none. -/
theorem Completes.responses (h : Completes c s i t) :
    (answers i = true ∧ ∃ w, t.responses = s.responses ++ [w])
      ∨ (answers i = false ∧ t.responses = s.responses) := by
  cases h with
  | warmup => exact .inr ⟨rfl, by simp [warmAll_eq_demandAll]⟩
  | setwt => exact .inr ⟨rfl, by simp⟩
  | setsr | setsrOut | setfq | setfqOut | oscrst => exact .inr ⟨rfl, rfl⟩
  | @next j o => exact .inl ⟨rfl, sample c s o, by simp⟩
  | nextOut => exact .inl ⟨rfl, freeAt s 4, by simp [nextUndefined]⟩
  | @tabrd k x => exact .inl ⟨rfl, tableWord c s k x.toNat, by simp⟩
  | rdreg | rdregFree => exact .inl ⟨rfl, _, rfl⟩

end Sys2Proof.Machine

namespace Sys2Proof

open Machine

/-- Settles O19: a command only demands tables, and demanding one neither clears a flag nor writes
into a built table. -/
theorem builtTablesAreNeverRewritten : Obligations.BuiltTablesAreNeverRewritten := by
  intro i s t k h hk
  rw [exec_eq_execWith] at h
  have hi := Completes.of_execWith h
  exact ⟨hi.isBuilt_of_isBuilt hk, fun n hn => hi.word_of_built hk hn⟩

/-- Settles O20: a table that a command builds is among those it demands. -/
theorem onlyADemandBuildsATable : Obligations.OnlyADemandBuildsATable := by
  intro i s t k h hs ht
  rw [exec_eq_execWith] at h
  exact demands_of_mem_demandedKinds ((Completes.of_execWith h).mem_demandedKinds hs ht)

/-- Settles O54: every read of TAB is inside it. -/
theorem noCommandFaults : Obligations.NoCommandFaults := by
  intro i s f
  rw [exec_eq_execWith]
  exact execWith_ne_fault Config.hw i s f

/-- Settles O56, by the next state of each command. -/
theorem oneResponsePerAnsweringCommand : Obligations.OneResponsePerAnsweringCommand := by
  intro i s t h
  rw [exec_eq_execWith] at h
  rcases (Completes.of_execWith h).responses with ⟨hans, hw⟩ | ⟨hans, hsame⟩
  · exact ⟨fun _ => hw, fun hno => by simp [hans] at hno⟩
  · exact ⟨fun hyes => by simp [hans] at hyes, fun _ => hsame⟩

/-- Settles O14: the address is `kind * N + index` by definition, and the five tables lie one after
the other in the `5 * N` words. -/
theorem tableAddressesAreDistinctAndInside : Obligations.TableAddressesAreDistinctAndInside :=
  ⟨fun c k _ hn => ⟨rfl, tableAddr_lt c k hn⟩, fun c _ _ _ _ hn hn' => tableAddr_injective c hn hn',
    fun _ _ _ => memRead_outside, by decide⟩

end Sys2Proof
end

section
/-! PROOFS. The index of a phase in range and the two words that NEXT reads there (rules R44, R106,
R107, R124). -/

namespace Sys2Proof

variable {L : Nat} {x : F32}

/-! ### The floor of a phase (rules R106, R124) -/

/-- The floor of a value that is not negative is the whole quotient of its units. -/
theorem floor_val_of_units {n : Nat} (h : units x = n) : ⌊val x⌋.toNat = n / oneUnits := by
  have hval : val x = (n : ℚ) / (oneUnits : ℚ) := by
    rw [val, h, oneUnits, Nat.cast_pow, Nat.cast_ofNat, Int.cast_natCast]
  rw [hval, Int.floor_toNat, Nat.floor_div_eq_div]

/-- A real that is not negative rounds to a datum that is not negative. -/
theorem units_roundUnits_natCast (n : Nat) :
    units (roundUnits n 1) = mag (pack false (roundMag n 1)) := by
  have hneg : decide ((n : Int) < 0) = false := by simp
  rw [units, signBit_roundUnits, hneg, roundUnits, hneg, Int.natAbs_natCast]
  rfl

/-- The floor of a datum whose value is not negative and below `2^24` is exact. -/
theorem units_ffloor {n : Nat} (hx : isFinite x = true) (hn : units x = n)
    (hlt : n < 2 ^ 24 * oneUnits) : units (ffloor x) = (n / oneUnits * oneUnits : Nat) := by
  have hq : n / oneUnits < 2 ^ 24 := Nat.div_lt_of_lt_mul (by rwa [Nat.mul_comm])
  rw [ffloor, if_pos hx, hn, ← Int.natCast_div]
  generalize n / oneUnits = q at hq
  split
  · next h0 =>
    obtain rfl : q = 0 := by exact_mod_cast h0
    rw [units_zero, Nat.zero_mul, Nat.cast_zero]
  · rw [← Nat.cast_mul, units_roundUnits_natCast, oneUnits,
      mag_roundMag_of_significand false hq (by decide)]

/-- Rule R124: `f2i` of a whole number in range is that number. -/
theorem f2i_of_units {q : Nat} (hin : inRange L x = true) (hx : units x = (q * oneUnits : Nat)) :
    f2i L x = q := by
  have hwhole : units x % oneUnits = 0 := by rw [hx, Nat.cast_mul, Int.mul_emod_left]
  have hcond : (inRange L x && decide (units x % oneUnits = 0)) = true := by
    rw [hin, hwhole]; rfl
  refine (if_pos hcond).trans ?_
  rw [hx, ← Int.natCast_div, Int.toNat_natCast, Nat.mul_div_cancel q (show 0 < oneUnits from Nat.two_pow_pos 149)]

/-- Rule R106: the index of a phase in range is the floor of its value. -/
theorem f2i_ffloor (hL : L ≤ 23) (h : inRange L x = true) :
    f2i L (ffloor x) = ⌊val x⌋.toNat := by
  obtain ⟨hfin, n, hn, hunits⟩ := inRange_iff.1 h
  have hlt : n < 2 ^ 24 * oneUnits := by
    rw [oneUnits, ← Nat.pow_add]
    exact hn.trans_le (Nat.pow_le_pow_right two_pos (by omega))
  have hfloor := units_ffloor hfin hunits hlt
  have hin : inRange L (ffloor x) = true :=
    inRange_of_units hL hfloor ((Nat.div_mul_le_self _ _).trans_lt hn)
  rw [f2i_of_units hin hfloor, floor_val_of_units hunits]

end Sys2Proof

namespace Sys2Proof.Machine

/-! ### The two indices (rules R44, R107) -/

theorem floor_val_lt {c : Config} {x : F32} (h : inRange c.log2N x = true) :
    ⌊val x⌋.toNat < c.size := by
  obtain ⟨-, n, hn, hunits⟩ := inRange_iff.1 h
  rw [floor_val_of_units hunits, oneUnits, Config.size]
  exact Nat.div_lt_of_lt_mul (by rwa [← Nat.pow_add, Nat.add_comm])

/-- Rule R107 for an index of the table: the index itself and the next, which wraps at the end. -/
theorem readIndices_of_lt {c : Config} {n : Nat} (h : n < c.size) :
    (readIndices c n).1 = n ∧ (n < c.size - 1 → (readIndices c n).2 = n + 1)
      ∧ (n = c.size - 1 → (readIndices c n).2 = 0) := by
  simp only [readIndices, mask_eq_mod]
  refine ⟨Nat.mod_eq_of_lt h, fun hlt => Nat.mod_eq_of_lt (by omega), fun heq => ?_⟩
  rw [show n + 1 = c.size by omega, Nat.mod_self]

end Sys2Proof.Machine

namespace Sys2Proof

open Machine

/-- Settles O38: the index of the split is the floor, and the mask is the remainder by `N`. -/
theorem readIndicesWrapByTheMask : Obligations.ReadIndicesWrapByTheMask := by
  refine ⟨readIndices_lt, fun c ci _ hL hin => ?_⟩
  have hidx : (splitPhase c.log2N ci).1 = ⌊val ci⌋.toNat := f2i_ffloor hL hin
  rw [hidx]
  exact readIndices_of_lt (floor_val_lt hin)

end Sys2Proof
end

section
/-! PROOFS. A word that decodes is the encoding of the command it decodes to (rules R51, R55, R56), and
its row of the opcode map is its own (rule R62). -/

namespace Sys2Proof

/-! ### Words put together again from their fields (rules R51, R53) -/

theorem cmdWord_eq_of_fields {w : CmdWord} {j op : BitVec 4} {arg : BitVec 32}
    (hj : oscField w = j) (hop : (opField w).toNat = op.toNat) (ha : argField w = arg) :
    cmdWord j op arg = w := by
  rw [← hj, ← BitVec.eq_of_toNat_eq hop, ← ha, cmdWord_fields]

theorem formatK_of_zeroField {arg : BitVec 32} (h : arg.extractLsb' 3 29 = 0#29) :
    arg = 0#29 ++ kindField arg := by
  rw [← h, kindField, BitVec.extractLsb'_append_extractLsb'_eq_extractLsb' (by rfl),
    BitVec.extractLsb'_eq_self]

theorem formatT_of_zeroField {arg : BitVec 32} (h : arg.extractLsb' 3 5 = 0#5) :
    arg = indexField arg ++ 0#5 ++ kindField arg := by
  rw [← h, indexField, kindField, BitVec.extractLsb'_append_extractLsb'_eq_extractLsb' (by rfl),
    BitVec.extractLsb'_append_extractLsb'_eq_extractLsb' (by rfl), BitVec.extractLsb'_eq_self]

theorem formatR_of_zeroField {arg : BitVec 32} (h : arg.extractLsb' 4 28 = 0#28) :
    arg = 0#28 ++ regField arg := by
  rw [← h, regField, BitVec.extractLsb'_append_extractLsb'_eq_extractLsb' (by rfl),
    BitVec.extractLsb'_eq_self]

/-! ### Encoding a decoded command -/

/-- The checks of each arm of the decoder leave no bit of the word undetermined by the command. The
case `h_n` is the arm of opcode `n`. -/
theorem encode_of_decodeWith {c : Config} {w : CmdWord} {i : Instr} (h : decodeWith c w = .ok i) :
    wellFormedWith c i = true ∧ encode i = w := by
  unfold decodeWith at h
  split at h
  case h_1 hop =>
    obtain ⟨ha, hb⟩ := needZero_ok.1 h
    obtain ⟨hj, ⟨⟩⟩ := needBlock_ok.1 hb
    exact ⟨rfl, cmdWord_eq_of_fields hj hop ha⟩
  case h_2 hop =>
    obtain ⟨hz, ho⟩ := needZero_ok.1 h
    obtain ⟨hj, hk⟩ := needOsc_ok.1 ho
    obtain ⟨k, hcode, ⟨⟩⟩ := needKind_ok.1 hk
    rw [encode, kindBits_of_kindOfCode hcode]
    exact ⟨hj, cmdWord_eq_of_fields rfl hop (formatK_of_zeroField hz)⟩
  case h_3 hop | h_4 hop =>
    obtain ⟨hj, ⟨⟩⟩ := needOsc_ok.1 h
    exact ⟨hj, cmdWord_eq_of_fields rfl hop rfl⟩
  case h_5 hop | h_8 hop =>
    obtain ⟨ha, ho⟩ := needZero_ok.1 h
    obtain ⟨hj, ⟨⟩⟩ := needOsc_ok.1 ho
    exact ⟨hj, cmdWord_eq_of_fields rfl hop ha⟩
  case h_6 hop =>
    obtain ⟨hz, hb⟩ := needZero_ok.1 h
    obtain ⟨hj, hk⟩ := needBlock_ok.1 hb
    obtain ⟨k, hcode, hi⟩ := needKind_ok.1 hk
    obtain ⟨hx, ⟨⟩⟩ := needIndex_ok.1 hi
    rw [encode, kindBits_of_kindOfCode hcode]
    exact ⟨hx, cmdWord_eq_of_fields hj hop (formatT_of_zeroField hz)⟩
  case h_7 hop =>
    obtain ⟨hz, ho⟩ := needZero_ok.1 h
    obtain ⟨hj, hr⟩ := needOsc_ok.1 ho
    obtain ⟨r, hcode, ⟨⟩⟩ := needReg_ok.1 hr
    rw [encode, regNumber_of_regOfNumber hcode]
    exact ⟨hj, cmdWord_eq_of_fields rfl hop (formatR_of_zeroField hz)⟩
  case h_9 => cases h

/-! ### The opcode map (rule R62) -/

theorem encode_matches_opcodeRow (i : Instr) :
    encode i &&& (opcodeRow i).mask = (opcodeRow i).pattern := by
  cases i with
  | warmup => exact Laws.EncodeMatchesRow.warmup
  | setwt j k => exact Laws.EncodeMatchesRow.setwt j k
  | setsr j f => exact Laws.EncodeMatchesRow.setsr j f
  | setfq j f => exact Laws.EncodeMatchesRow.setfq j f
  | next j => exact Laws.EncodeMatchesRow.next j
  | tabrd k x => exact Laws.EncodeMatchesRow.tabrd k x
  | rdreg j r => exact Laws.EncodeMatchesRow.rdreg j r
  | oscrst j => exact Laws.EncodeMatchesRow.oscrst j

/-- The eight rows of the opcode map. -/
def opcodeRows : List OpcodeRow :=
  [.warmup, .setwt 0 .sine, .setsr 0 0, .setfq 0 0, .next 0, .tabrd .sine 0, .rdreg 0 .kind,
    .oscrst 0].map opcodeRow

theorem opcodeRow_mem (i : Instr) : opcodeRow i ∈ opcodeRows := by
  cases i <;> simp [opcodeRows, opcodeRow]

/-- Every row fixes the whole of `op`. -/
theorem opField_mask : ∀ row ∈ opcodeRows, opField row.mask = BitVec.allOnes 4 := by decide

/-- No two rows have the same `op`. -/
theorem opField_pattern_nodup : (opcodeRows.map fun row => opField row.pattern).Nodup := by decide

theorem opField_of_matches {w : CmdWord} {row : OpcodeRow} (hrow : row ∈ opcodeRows)
    (h : w &&& row.mask = row.pattern) : opField row.pattern = opField w := by
  rw [← h, opField, BitVec.extractLsb'_and, ← opField, ← opField, opField_mask row hrow,
    BitVec.and_allOnes]

/-- A word matches at most one row, since the row fixes its `op`. -/
theorem opcodeRow_eq_of_matches {w : CmdWord} {i i' : Instr}
    (h : w &&& (opcodeRow i).mask = (opcodeRow i).pattern)
    (h' : w &&& (opcodeRow i').mask = (opcodeRow i').pattern) : opcodeRow i' = opcodeRow i :=
  List.inj_on_of_nodup_map opField_pattern_nodup (opcodeRow_mem i') (opcodeRow_mem i)
    ((opField_of_matches (opcodeRow_mem i') h').trans
      (opField_of_matches (opcodeRow_mem i) h).symm)

/-! ### The obligations -/

/-- Settles O2, by the decoder's checks on the word of each command. -/
theorem decodeOfEncodeIsTheInstruction : Obligations.DecodeOfEncodeIsTheInstruction :=
  fun _ _ => decodeWith_encode

/-- Settles O3, by the arms of the decoder. -/
theorem encodeOfDecodeIsTheWord : Obligations.EncodeOfDecodeIsTheWord :=
  fun _ _ _ => encode_of_decodeWith

/-- Settles O4: the word is the command's encoding, which matches its row, and a row fixes `op`. -/
theorem decodedWordMatchesItsOpcodeRowAlone : Obligations.DecodedWordMatchesItsOpcodeRowAlone := by
  intro w i h
  obtain ⟨-, rfl⟩ := encode_of_decodeWith h
  have hrow := encode_matches_opcodeRow i
  exact ⟨hrow, fun _ => opcodeRow_eq_of_matches hrow⟩

/-- Settles O1, by evaluating the decoder on the ten words. -/
theorem specWordsDecodeToTheirCommands : Obligations.SpecWordsDecodeToTheirCommands := by
  unfold Obligations.SpecWordsDecodeToTheirCommands
  decide

end Sys2Proof
end

section
/-! PROOFS. The reserved words (rule R55): which words no command decodes from, by the numbers in their
fields. -/

namespace Sys2Proof

/-! ### The fields of a word as numbers (rules R51, R53) -/

section Fields

variable (w : CmdWord)

theorem toNat_opField : (opField w).toNat = w.toNat / 2 ^ 32 % 16 := by
  rw [opField, BitVec.extractLsb'_toNat, Nat.shiftRight_eq_div_pow]

theorem toNat_oscField : (oscField w).toNat = w.toNat / 2 ^ 36 := by
  rw [oscField, BitVec.extractLsb'_toNat, Nat.shiftRight_eq_div_pow]
  have := w.isLt
  omega

theorem toNat_argField : (argField w).toNat = w.toNat % 2 ^ 32 := by
  rw [argField, BitVec.extractLsb'_toNat, Nat.shiftRight_zero]

end Fields

/-! ### Legal codes (rules R10 and R21) -/

theorem exists_kindOfCode_iff (b : BitVec 3) : (∃ k, kindOfCode b = some k) ↔ b.toNat < 5 := by
  rw [← Option.isSome_iff_exists]
  revert b; decide

theorem exists_regOfNumber_iff (b : BitVec 4) : (∃ r, regOfNumber b = some r) ↔ b.toNat < 7 := by
  rw [← Option.isSome_iff_exists]
  revert b; decide

/-! ### Refusal -/

theorem exists_error_iff_not_ok {x : Except Reserved Instr} :
    (∃ why, x = .error why) ↔ ¬ ∃ i, x = .ok i := by
  cases x <;> simp

namespace Machine

theorem step_of_decode_error {s : State} {w : CmdWord} {rest : List HostEvent} {why : Reserved}
    (he : s.events = .cmd w :: rest) (hd : decode w = .error why) :
    step s = .refused (.reservedCommand why) := by
  simp [step, he, hd]

end Machine

/-- Settles O5: a word is reserved when it does not pass the checks of its opcode's arm, and each check
is a bound on the number in one field. The case `h_n` is the arm of opcode `n`. -/
theorem reservedWordsAreTheSixConditions : Obligations.ReservedWordsAreTheSixConditions := by
  refine ⟨fun c w => ?_, fun s w rest why => Machine.step_of_decode_error, by decide⟩
  rw [exists_error_iff_not_ok, decodeWith, toNat_opField]
  split
  case h_3 hop | h_4 hop =>
    rw [hop]
    simp [needOsc_ok, oscOk, toNat_oscField]
  case h_1 hop | h_5 hop | h_8 hop =>
    rw [hop]
    simp [needZero_ok, needBlock_ok, needOsc_ok, BitVec.toNat_eq, toNat_argField, toNat_oscField,
      oscOk]
    omega
  case h_2 hop | h_7 hop =>
    rw [hop]
    simp [needZero_ok, needOsc_ok, needKind_ok, needReg_ok, exists_kindOfCode_iff,
      exists_regOfNumber_iff, BitVec.toNat_eq, kindField, regField, toNat_argField,
      toNat_oscField, oscOk]
    omega
  case h_6 hop =>
    rw [hop]
    simp [needZero_ok, needBlock_ok, needKind_ok, needIndex_ok, exists_kindOfCode_iff,
      BitVec.toNat_eq, kindField, indexField, toNat_argField, toNat_oscField, indexOk]
    omega
  case h_9 =>
    simp only [imp_false] at *
    exact iff_of_true nofun (.inl (by omega))

end Sys2Proof
end

section
/-! PROOFS. The assembler (rules R58, R59): it passes on well-formed commands only, and what each
pseudo-instruction stands for. -/

namespace Sys2Proof.Asm

/-! ### The last range check (rule R58) -/

theorem wellFormed_of_assembleLine {c : Config} {line : Text} {is : List Instr}
    (h : assembleLine c line = some is) : ∀ i ∈ is, wellFormedWith c i = true := by
  unfold assembleLine at h
  split at h
  · obtain rfl := Option.some.inj h
    exact nofun
  · split at h
    · split at h
      · next hall =>
        obtain rfl := Option.some.inj h
        exact List.all_eq_true.1 hall
      · cases h
    · cases h

theorem wellFormed_of_assembleLines {c : Config} {lines : List Text} {is : List Instr}
    (h : assembleLines c lines = some is) : ∀ i ∈ is, wellFormedWith c i = true := by
  induction lines generalizing is with
  | nil =>
    obtain rfl := Option.some.inj h
    exact nofun
  | cons line lines ih =>
    unfold assembleLines at h
    split at h
    · next hline hlines =>
      obtain rfl := Option.some.inj h
      exact List.forall_mem_append.2 ⟨wellFormed_of_assembleLine hline, ih hlines⟩
    · cases h

/-! ### The mnemonics (rules R58, R59) -/

section Mnemonics

variable (operands : List Text)

theorem commands_warmup : commands "warmup".toList [] = some [.warmup] := rfl

theorem commands_setsr : commands "setsr".toList operands
    = withOne float? (fun j f => [.setsr j f]) operands := rfl

theorem commands_setfq : commands "setfq".toList operands
    = withOne float? (fun j f => [.setfq j f]) operands := rfl

theorem commands_next : commands "next".toList operands = bare (fun j => [.next j]) operands := rfl

theorem commands_start : commands "start".toList operands = startOperands operands := rfl

theorem commands_tick : commands "tick".toList operands = withOne float? expandTick operands := rfl

/-- BLOCK is SETWT under another name. -/
theorem commands_block :
    commands "block".toList operands = commands "setwt".toList operands := rfl

end Mnemonics

/-! ### The expansions (rule R59): accepted where every operand is -/

theorem commands_start_named (o r f : Text) :
    commands "start".toList [o, r, f]
      = (commands "warmup".toList []).bind fun a => (commands "setsr".toList [o, r]).bind fun b =>
          (commands "setfq".toList [o, f]).map fun c => a ++ b ++ c := by
  simp only [commands_start, commands_warmup, commands_setsr, commands_setfq, startOperands,
    withOne]
  cases osc? o <;> cases float? r <;> cases float? f <;> rfl

theorem commands_start_left_out (r f : Text) :
    commands "start".toList [r, f]
      = (commands "warmup".toList []).bind fun a => (commands "setsr".toList [r]).bind fun b =>
          (commands "setfq".toList [f]).map fun c => a ++ b ++ c := by
  simp only [commands_start, commands_warmup, commands_setsr, commands_setfq, startOperands,
    withOne]
  cases float? r <;> cases float? f <;> rfl

theorem commands_tick_named (o f : Text) :
    commands "tick".toList [o, f]
      = (commands "setfq".toList [o, f]).bind fun a =>
          (commands "next".toList [o]).map fun b => a ++ b := by
  simp only [commands_tick, commands_setfq, commands_next, withOne, bare]
  cases osc? o <;> cases float? f <;> rfl

theorem commands_tick_left_out (f : Text) :
    commands "tick".toList [f]
      = (commands "setfq".toList [f]).bind fun a =>
          (commands "next".toList []).map fun b => a ++ b := by
  simp only [commands_tick, commands_setfq, commands_next, withOne, bare]
  cases float? f <;> rfl

end Sys2Proof.Asm

namespace Sys2Proof

open Asm

/-- Settles O7: every command the assembler passes on is well-formed, and its encoding decodes. -/
theorem assemblerEmitsNoReservedWord : Obligations.AssemblerEmitsNoReservedWord := by
  intro program words h w hw
  obtain ⟨is, hlines, rfl⟩ := Option.map_eq_some_iff.1 h
  obtain ⟨i, hi, rfl⟩ := List.mem_map.1 hw
  exact ⟨i, decode_encode (wellFormed_of_assembleLines hlines i hi)⟩

/-- Settles O8: the expansions for all operand texts, and the three lines by running the assembler. -/
theorem pseudoInstructionsExpandAsListed : Obligations.PseudoInstructionsExpandAsListed :=
  ⟨fun o r f => ⟨commands_start_named o r f, commands_start_left_out r f⟩,
    fun o f => ⟨commands_tick_named o f, commands_tick_left_out f⟩,
    fun o k => ⟨commands_block [o, k], commands_block [k]⟩, by decide +kernel⟩

end Sys2Proof
end

section
/-! PROOFS. The commands of the table store (rules R70, R72, R79) and the stability of table reads
between two resets (rule R81). -/

namespace Sys2Proof.Machine

variable {c : Config} {s t : State}

/-! ### The construction as a loop of word writes (rule R70) -/

/-- In canonical form no entry is listed at or below the address in front of it. -/
theorem listedWord_eq_none_of_wf {x : Nat × F32} {m : Memory} (h : Memory.wf (x :: m)) {a : Nat}
    (ha : a ≤ x.1) : listedWord m a = none :=
  listedWord_eq_none fun y hy => by have := (List.pairwise_cons.1 h).1 y hy; omega

/-- Memories in canonical form that list the same word at every address are equal. -/
theorem memory_ext {m n : Memory} (hm : Memory.wf m) (hn : Memory.wf n)
    (h : ∀ a, listedWord m a = listedWord n a) : m = n := by
  induction m generalizing n with
  | nil =>
    cases n with
    | nil => rfl
    | cons y n => simpa [listedWord] using h y.1
  | cons x m ih =>
    cases n with
    | nil => simpa [listedWord] using h x.1
    | cons y n =>
      have hx := h x.1
      have hy := h y.1
      have haddr : x.1 = y.1 := by
        rcases lt_trichotomy x.1 y.1 with hlt | heq | hlt
        · simp [listedWord, hlt.ne, listedWord_eq_none_of_wf hn hlt.le] at hx
        · exact heq
        · simp [listedWord, hlt.ne, listedWord_eq_none_of_wf hm hlt.le] at hy
      have hword : x.2 = y.2 := by simpa [listedWord, haddr] using hx
      obtain rfl : x = y := Prod.ext haddr hword
      rw [ih (List.pairwise_cons.1 hm).2 (List.pairwise_cons.1 hn).2 fun a => ?_]
      by_cases ha : a = x.1
      · rw [listedWord_eq_none_of_wf hm ha.le, listedWord_eq_none_of_wf hn ha.le]
      · simpa [listedWord, ha] using h a

/-- The memory after the words `f 0 .. f (n-1)` are written one by one from `base` up. -/
def putWords (m : Memory) (base : Nat) (f : Nat → F32) (n : Nat) : Memory :=
  (List.range n).foldl (fun m i => putWord m (base + i) (f i)) m

@[simp] theorem putWords_zero (m : Memory) (base : Nat) (f : Nat → F32) : putWords m base f 0 = m :=
  rfl

@[simp] theorem putWords_succ (m : Memory) (base : Nat) (f : Nat → F32) (n : Nat) :
    putWords m base f (n + 1) = putWord (putWords m base f n) (base + n) (f n) := by
  simp [putWords, List.range_succ]

theorem putWords_wf {m : Memory} (h : Memory.wf m) (base : Nat) (f : Nat → F32) (n : Nat) :
    Memory.wf (putWords m base f n) := by
  induction n with
  | zero => exact h
  | succ n ih => exact putWords_succ m base f n ▸ putWord_wf ih _ _

theorem listedWord_putWords_inside (m : Memory) (base : Nat) (f : Nat → F32) {n i : Nat}
    (hi : i < n) : listedWord (putWords m base f n) (base + i) = some (f i) := by
  induction n with
  | zero => omega
  | succ n ih =>
    rw [putWords_succ]
    by_cases h : i = n
    · rw [h, listedWord_putWord_same]
    · rw [listedWord_putWord_other _ _ (by omega), ih (by omega)]

theorem listedWord_putWords_outside (m : Memory) {base : Nat} (f : Nat → F32) {n a : Nat}
    (ha : a < base ∨ base + n ≤ a) : listedWord (putWords m base f n) a = listedWord m a := by
  induction n with
  | zero => rfl
  | succ n ih => rw [putWords_succ, listedWord_putWord_other _ _ (by omega), ih (by omega)]

/-- Writing a table word by word leaves the memory that writing it in one step leaves. -/
theorem putTable_eq_putWords {m : Memory} (h : Memory.wf m) (base len : Nat) (f : Nat → F32) :
    putTable m base len f = putWords m base f len := by
  refine memory_ext (putTable_wf h _ _ _) (putWords_wf h _ _ _) fun a => ?_
  by_cases ha : a < base ∨ base + len ≤ a
  · rw [listedWord_putTable_outside m base len f ha, listedWord_putWords_outside m f ha]
  · obtain ⟨i, rfl⟩ : ∃ i, a = base + i := ⟨a - base, by omega⟩
    rw [listedWord_putTable_inside m base len f (by omega),
      listedWord_putWords_inside m base f (by omega)]

/-- The loop of rule R70 writes the memory and nothing else. -/
theorem foldl_memWrite (c : Config) (k : Kind) (s : State) (n : Nat) :
    (List.range n).foldl (fun t i => memWrite (tableAddr c k i) (rom c t.noiseDraw k i) t) s
      = { s with tab := putWords s.tab (tableAddr c k 0) (rom c s.noiseDraw k) n } := by
  induction n with
  | zero => rfl
  | succ n ih =>
    rw [List.range_succ, List.foldl_append, ih, putWords_succ, ← tableAddr_add]
    rfl

/-! ### Demanding every table (rule R72) -/

@[simp] theorem demandAll_freeCount (c : Config) (ks : List Kind) (s : State) :
    (demandAll c ks s).freeCount = s.freeCount :=
  demandAll_induction (P := fun t => t.freeCount = s.freeCount) (fun k t ht => by simp [ht]) ks rfl

/-- Demanding built tables does nothing. -/
theorem demandAll_of_built (h : ∀ k, isBuilt s.built k = true) (ks : List Kind) :
    demandAll c ks s = s := by
  induction ks with
  | nil => rfl
  | cons k ks ih => rw [demandAll_cons, getTable_of_built (h k), ih]

/-- An unbuilt table that is demanded gets its ROM. -/
theorem demandAll_word_of_unbuilt {k : Kind} (hk : isBuilt s.built k = false) {n : Nat}
    (hn : n < c.size) {ks : List Kind} (hmem : k ∈ ks) :
    listedWord (demandAll c ks s).tab (tableAddr c k n) = some (rom c s.noiseDraw k n) := by
  induction ks generalizing s with
  | nil => cases hmem
  | cons k' ks ih =>
    rw [demandAll_cons]
    by_cases h : k = k'
    · subst h
      rw [demandAll_word_of_built (by simp [isBuilt_getTable]) hn, getTable_of_unbuilt hk,
        build_word_inside c k s hn]
    · rw [ih (by simp [isBuilt_getTable, hk, h]) (List.mem_of_ne_of_mem h hmem), getTable_noiseDraw]

/-- No construction writes outside the five tables. -/
theorem demandAll_word_outside (ks : List Kind) {a : Nat} (ha : tabWords c ≤ a) :
    listedWord (demandAll c ks s).tab a = listedWord s.tab a := by
  refine demandAll_induction (P := fun t => listedWord t.tab a = listedWord s.tab a)
    (fun k t ht => ?_) ks rfl
  cases hk : isBuilt t.built k with
  | true => rw [getTable_of_built hk, ht]
  | false =>
    have hlast := tableAddr_lt c k (i := c.size - 1) (by have := size_pos c; omega)
    rw [tableAddr_add] at hlast
    rw [getTable_of_unbuilt hk, build_word_outside c k t (.inr (by omega)), ht]

/-! ### A table index that no legal word carries (rule R55, condition 4) -/

theorem decodeWith_encode_tabrd_of_index (k : Kind) {x : BitVec 24} (h : indexOk c x = false) :
    decodeWith c (encode (.tabrd k x)) = .error .index := by
  simp [encode, decodeWith, needZero, needBlock, needKind, needIndex, h]

theorem toNat_encode_tabrd (k : Kind) (x : BitVec 24) :
    (encode (.tabrd k x)).toNat = 0x0600000000 + x.toNat * 2 ^ 8 + kindCode k := by
  have hk := kindCode_lt k
  have harg : (x ++ 0#5 ++ kindBits k).toNat = x.toNat * 2 ^ 8 + kindCode k := by
    rw [BitVec.toNat_append, BitVec.toNat_append, toNat_kindBits,
      ← Nat.shiftLeft_add_eq_or_of_lt (by omega), ← Nat.shiftLeft_add_eq_or_of_lt (by simp)]
    simp only [Nat.shiftLeft_eq, BitVec.toNat_ofNat]
    omega
  rw [encode, toNat_cmdWord, harg]
  simp only [BitVec.toNat_ofNat]
  omega

/-! ### Runs without a reset (rule R81) -/

/-- A step that takes no reset stays in the reset period, and leaves none to come. -/
theorem noiseDraw_of_step (h : step s = .next t) (hrst : .rst ∉ s.events) :
    t.noiseDraw = s.noiseDraw ∧ .rst ∉ t.events := by
  rcases step_cases h with ⟨-, rfl⟩ | ⟨rest, he, -⟩ | ⟨w, rest, i, he, -, hi⟩
  · exact ⟨rfl, hrst⟩
  · simp [he] at hrst
  · obtain ⟨-, hdraw, hevents⟩ := hi.tables
    rw [hdraw, hevents]
    exact ⟨rfl, fun hmem => hrst (he ▸ List.mem_cons_of_mem _ hmem)⟩

/-- The first of `n + 1` steps completes, and the rest are run from its next state. -/
theorem run_succ {M : Host.Core} {n : Nat} {s t : M.State} (h : M.run (n + 1) s = .next t) :
    ∃ u, M.step s = .next u ∧ M.run n u = .next t := by
  rw [Host.Core.run] at h
  split at h
  · next u hu => exact ⟨u, hu, h⟩
  · cases h
  · cases h

/-- A run without a reset, from a good state, ends in a good state of the same reset period. -/
theorem run_keeps_inv_and_noiseDraw {n : Nat} (hs : Inv Config.hw s) (hrst : .rst ∉ s.events)
    (h : Host.Core.run Sys2Proof.core n s = .next t) :
    Inv Config.hw t ∧ t.noiseDraw = s.noiseDraw := by
  induction n generalizing s with
  | zero => cases h; exact ⟨hs, rfl⟩
  | succ n ih =>
    obtain ⟨u, hu, hrun⟩ := run_succ h
    obtain ⟨hdraw, hrst'⟩ := noiseDraw_of_step hu hrst
    rw [← hdraw]
    exact ih (everyStepKeepsTheInvariant s u hs hu) hrst' hrun

/-- In a good state every table read answers the table's ROM. -/
theorem tabRead_of_inv (h : Inv c s) (k : Kind) {i : Nat} (hi : i < c.size) :
    (tabRead c k i s).map Prod.fst = .ok (rom c s.noiseDraw k i) := by
  rw [tabRead_ok c k s hi, tableWord_of_inv h k hi]
  rfl

end Sys2Proof.Machine

namespace Sys2Proof

open Machine

/-- Settles O18, by induction on the steps: a run without a reset keeps the invariant and the noise
draw, and in a good state these fix every word a read answers. -/
theorem tableReadsAreStableBetweenResets : Obligations.TableReadsAreStableBetweenResets := by
  intro n s t hs hrst h k i hi
  obtain ⟨ht, hdraw⟩ := run_keeps_inv_and_noiseDraw hs hrst h
  rw [tabRead_of_inv ht k hi, tabRead_of_inv hs k hi, hdraw]

/-- Settles O15: both memories are in canonical form and list the same words. -/
theorem buildIsTheLoopOfWordWrites : Obligations.BuildIsTheLoopOfWordWrites := by
  intro c k s hwf _
  rw [foldl_memWrite, ← putTable_eq_putWords hwf]
  rfl

/-- Settles O16: WARMUP demands all five kinds in turn. -/
theorem warmupBuildsEveryTable : Obligations.WarmupBuildsEveryTable := by
  have hall : ∀ k, k ∈ allKinds := fun k => by cases k <;> decide
  refine ⟨fun s => ⟨demandAll Config.hw allKinds s, rfl, fun k => ?_,
    fun k hk i hi => demandAll_word_of_unbuilt hk hi (hall k),
    fun k hk i hi => demandAll_word_of_built hk hi allKinds,
    fun a ha => demandAll_word_outside allKinds ha, ?_⟩, fun s hs => ?_, by decide⟩
  · simp [isBuilt_demandAll, hall]
  · simp [sameRest]
  · exact congrArg Host.Outcome.next (demandAll_of_built hs allKinds)

/-- Settles O17: the next state of TABRD with an index of the table, and the refusal of any other. -/
theorem tabrdAnswersTheTableWord : Obligations.TabrdAnswersTheTableWord := by
  refine ⟨fun k x s hx => ⟨_, (Completes.tabrd (c := Config.hw) hx).execWith_eq, ?_⟩,
    fun k x s hx => ?_, toNat_encode_tabrd⟩
  · exact ⟨by simp, fun hs => tableWord_of_inv hs k hx, getTable_demanded Config.hw k s,
      by simp [isBuilt_getTable], by simp, by simp, by simp [sameRest]⟩
  · have hindex : indexOk Config.hw x = false := decide_eq_false (Nat.not_lt_of_le hx)
    refine ⟨decodeWith_encode_tabrd_of_index k hindex, ?_⟩
    simp [exec, execTabrd, execTabrdWith, hindex]

end Sys2Proof
end

section
/-! PROOFS. Rounding gives the nearest datum (rule R121): of a magnitude, of a signed real, and what
follows for a datum's own value and for the unit in the last place. -/

namespace Sys2Proof

open Machine

/-! ### Magnitudes -/

/-- No whole number is nearer to a quotient than its rounding. -/
theorem roundHalfEven_nearest (n : Nat) {d : Nat} (hd : 0 < d) (k : Nat) :
    |(roundHalfEven n d * d : Int) - n| ≤ |(k * d : Int) - n| := by
  obtain ⟨hlo, hhi⟩ := roundHalfEven_near n hd
  zify at hlo hhi
  rcases lt_trichotomy k (roundHalfEven n d) with hlt | heq | hgt
  · have hstep : ((k + 1) * d : Int) ≤ roundHalfEven n d * d := by
      exact_mod_cast Nat.mul_le_mul_right d hlt
    rw [add_mul, one_mul] at hstep
    rw [abs_le, abs_of_nonpos (by linarith : (k * d : Int) - n ≤ 0)]
    constructor <;> linarith
  · rw [heq]
  · have hstep : ((roundHalfEven n d + 1) * d : Int) ≤ k * d := by
      exact_mod_cast Nat.mul_le_mul_right d hgt
    rw [add_mul, one_mul] at hstep
    rw [abs_le, abs_of_nonneg (by linarith : 0 ≤ (k * d : Int) - n)]
    constructor <;> linarith

/-- No datum's magnitude is nearer to a real than the one it is rounded to: a datum of a greater unit
in the last place is a multiple of the real's unit, and one of a smaller unit lies below the real's
binade, whose least magnitude is such a multiple too. -/
theorem mag_roundMag_nearest (neg : Bool) {n d : Nat} (hd : 0 < d) (he : ulpShift (n / d) ≤ 253)
    (y : F32) :
    |(mag (pack neg (roundMag n d)) * d : Int) - n| ≤ |(mag y * d : Int) - n| := by
  have hnear := roundHalfEven_nearest n (d := d * 2 ^ ulpShift (n / d)) (by positivity)
  have hround : (mag (pack neg (roundMag n d)) * d : Int)
      = roundSig n d * (d * 2 ^ ulpShift (n / d) : Nat) := by
    rw [mag_roundMag neg hd he]; push_cast; ring
  rw [hround]
  obtain ⟨m, f, hmag, hm, -⟩ := exists_significand y
  rcases Nat.lt_or_ge f (ulpShift (n / d)) with hf | hf
  · have hlo : 2 ^ 23 * 2 ^ ulpShift (n / d) * d ≤ n :=
      (Nat.le_div_iff_mul_le hd).1 ((ulpShift_bounds (n / d)).1.resolve_left (by omega))
    have hy : mag y ≤ 2 ^ 23 * 2 ^ ulpShift (n / d) := by
      have hpow : 2 ^ (f + 1) ≤ 2 ^ ulpShift (n / d) := Nat.pow_le_pow_right two_pos hf
      have := Nat.mul_le_mul_right (2 ^ f) hm.le
      rw [Nat.pow_succ] at hpow
      omega
    have hyd := Nat.mul_le_mul_right d hy
    refine (hnear (2 ^ 23)).trans ?_
    zify at hlo hyd
    rw [show ((2 ^ 23 : Nat) * (d * 2 ^ ulpShift (n / d) : Nat) : Int)
      = 2 ^ 23 * 2 ^ ulpShift (n / d) * d by push_cast; ring,
      abs_of_nonpos (by linarith), abs_of_nonpos (by linarith)]
    linarith
  · have hmul : (mag y * d : Int)
        = (m * 2 ^ (f - ulpShift (n / d)) : Nat) * (d * 2 ^ ulpShift (n / d) : Nat) := by
      rw [hmag, ← Nat.sub_add_cancel hf, Nat.pow_add, Nat.add_sub_cancel]; push_cast; ring
    rw [hmul]
    exact hnear _

/-- The exponent field of a rounded magnitude tells its unit in the last place, or that of the next
binade, which a carry reaches. -/
theorem ulpShift_lt_expField (neg : Bool) {n d : Nat} (hd : 0 < d) (he : ulpShift (n / d) ≤ 253) :
    ulpShift (n / d) < max (expField (pack neg (roundMag n d))) 1 := by
  obtain ⟨hlo, hhi⟩ := roundSig_bounds n hd
  rw [roundMag_eq hd he, expField_pack neg (by omega)]
  omega

/-! ### Signed reals -/

/-- The distance of a datum from a fraction, in whole units. -/
theorem abs_val_sub_div (x : F32) (num : Int) {den : Nat} (hd : 0 < den) :
    |val x - num / den| = (|units x * den - num * oneUnits| : Int) / (2 ^ 149 * den : ℚ) := by
  have hden : (0 : ℚ) < den := by exact_mod_cast hd
  have hdiff : val x - num / den
      = ((units x * den - num * oneUnits : Int) : ℚ) / (2 ^ 149 * den) := by
    rw [val, oneUnits]; push_cast; field_simp; ring
  rw [hdiff, abs_div, abs_of_pos (by positivity : (0 : ℚ) < 2 ^ 149 * den), Int.cast_abs]

theorem rn_of_ne_zero {num : Int} (h : num ≠ 0) (den : Nat) :
    rn num den = roundUnits (num * oneUnits) den := if_neg h

@[simp] theorem rn_zero (den : Nat) : rn 0 den = zero false := if_pos rfl

@[simp] theorem val_zero (neg : Bool) : val (zero neg) = 0 := by simp [val]

/-- Rule R121: no datum is nearer to a real than the one it is rounded to. -/
theorem rn_nearest {num : Int} {den : Nat} (hd : 0 < den)
    (he : ulpShift ((num * oneUnits).natAbs / den) ≤ 253) (y : F32) :
    |val (rn num den) - num / den| ≤ |val y - num / den| := by
  by_cases h0 : num = 0
  · simp [h0]
  rw [abs_val_sub_div _ num hd, abs_val_sub_div y num hd, rn_of_ne_zero h0]
  refine div_le_div_of_nonneg_right (Int.cast_le.2 ?_) (by positivity)
  calc |units (roundUnits (num * oneUnits) den) * den - num * oneUnits|
      ≤ |(mag y * den : Int) - (num * oneUnits).natAbs| := by
        rw [abs_units_roundUnits_sub]
        exact mag_roundMag_nearest _ hd he y
    _ = |(|units y * den|) - (|num * oneUnits|)| := by
        rw [abs_mul, abs_units, Nat.abs_cast, Int.abs_eq_natAbs (num * oneUnits)]
    _ ≤ |units y * den - num * oneUnits| := abs_abs_sub_abs_le _ _

/-- Rounding is within half the unit in the word's last place. -/
theorem rn_half_spacing {num : Int} {den : Nat} (hd : 0 < den)
    (he : ulpShift ((num * oneUnits).natAbs / den) ≤ 253) :
    |val (rn num den) - num / den| ≤ spacing (rn num den) / 2 := by
  have hden : (0 : ℚ) < den := by exact_mod_cast hd
  by_cases h0 : num = 0
  · simp only [h0, rn_zero, val_zero, Int.cast_zero, zero_div, sub_zero, abs_zero, spacing]
    positivity
  obtain ⟨hlo, hhi⟩ := mag_roundMag_near (decide (num * oneUnits < 0)) hd he
  have hexp := ulpShift_lt_expField (decide (num * oneUnits < 0)) hd he
  rw [← roundUnits, ← rn_of_ne_zero h0] at hlo hhi hexp
  have herr : 2 * |units (rn num den) * den - num * oneUnits|
      ≤ (den * 2 ^ ulpShift ((num * oneUnits).natAbs / den) : Nat) := by
    rw [rn_of_ne_zero h0, abs_units_roundUnits_sub, ← rn_of_ne_zero h0]
    rcases abs_cases ((mag (rn num den) : Int) * den - (num * oneUnits).natAbs) with h | h <;> omega
  have hpow : (2 : ℚ) ^ (ulpShift ((num * oneUnits).natAbs / den) + 1)
      ≤ 2 ^ max (expField (rn num den)) 1 := pow_le_pow_right₀ one_le_two hexp
  have herr' : 2 * ((|units (rn num den) * den - num * oneUnits| : Int) : ℚ)
      ≤ den * 2 ^ ulpShift ((num * oneUnits).natAbs / den) := by exact_mod_cast herr
  rw [abs_val_sub_div _ num hd, div_le_iff₀ (by positivity), spacing]
  rw [pow_succ] at hpow
  calc ((|units (rn num den) * den - num * oneUnits| : Int) : ℚ)
      ≤ den * (2 ^ ulpShift ((num * oneUnits).natAbs / den) * 2) / 4 := by linarith
    _ ≤ den * 2 ^ max (expField (rn num den)) 1 / 4 := by gcongr
    _ = 2 ^ max (expField (rn num den)) 1 / 2 ^ 150 / 2 * (2 ^ 149 * den) := by ring

/-- A real that is the value of a datum is rounded to that value. -/
theorem val_rn_of_val {num : Int} {den : Nat} (hd : 0 < den)
    (he : ulpShift ((num * oneUnits).natAbs / den) ≤ 253) {y : F32} (hy : val y = num / den) :
    val (rn num den) = num / den := by
  have h := rn_nearest hd he y
  rw [hy, sub_self, abs_zero, abs_nonpos_iff, sub_eq_zero] at h
  exact h

/-- A whole number of at most 24 significant bits is the value of a datum, in units. -/
theorem units_roundUnits_of_significand {m : Int} {e : Nat} (hm : m.natAbs < 2 ^ 24)
    (he : e ≤ 253) : units (roundUnits (m * 2 ^ e) 1) = m * 2 ^ e := by
  have habs : (m * 2 ^ e).natAbs = m.natAbs * 2 ^ e := by rw [Int.natAbs_mul, Int.natAbs_pow]; rfl
  have h := abs_units_roundUnits_sub (m * 2 ^ e) 1
  rw [roundUnits, habs, mag_roundMag_of_significand _ hm he, Nat.cast_one, mul_one, mul_one, sub_self,
    abs_zero, abs_eq_zero, sub_eq_zero] at h
  rw [roundUnits, habs, h]

/-- The unit in the last place of a real below 2 in magnitude. -/
theorem ulpShift_of_lt_two {num : Int} {den : Nat} (hd : 0 < den) (h : num.natAbs < 2 * den) :
    ulpShift ((num * oneUnits).natAbs / den) ≤ 126 := by
  refine ulpShift_le ((Nat.div_lt_iff_lt_mul hd).2 ?_)
  rw [Int.natAbs_mul, Int.natAbs_natCast, oneUnits]
  omega

/-- A real below 2 in magnitude is rounded to a finite datum. -/
theorem isFinite_rn_of_lt_two {num : Int} {den : Nat} (hd : 0 < den) (h : num.natAbs < 2 * den) :
    isFinite (rn num den) = true := by
  by_cases h0 : num = 0
  · simp [h0]
  have he := ulpShift_of_lt_two hd h
  rw [rn_of_ne_zero h0]
  refine isFinite_of_mag_lt (k := 151) (by decide) ?_
  rw [roundUnits, mag_roundMag _ hd (he.trans (by decide))]
  calc roundSig (num * oneUnits).natAbs den * 2 ^ ulpShift ((num * oneUnits).natAbs / den)
      ≤ 2 ^ 24 * 2 ^ 126 :=
        Nat.mul_le_mul (roundSig_bounds _ hd).2 (Nat.pow_le_pow_right two_pos he)
    _ < 2 ^ 151 := by norm_num

theorem fneg_pack (neg : Bool) {p : Nat} (h : p < 2 ^ 31) : fneg (pack neg p) = pack (!neg) p := by
  apply BitVec.eq_of_toNat_eq
  rw [toNat_fneg, toNat_pack neg h, toNat_pack (!neg) h]
  cases neg with
  | false => exact if_pos h
  | true => simp

/-- The rounding of a negated real is the negated rounding, but for the one zero of a real 0. -/
theorem rn_neg {num : Int} (h : num ≠ 0) (den : Nat) : rn (-num) den = fneg (rn num den) := by
  have hsign : decide (-num * oneUnits < 0) = !decide (num * oneUnits < 0) := by
    have hne : num * (oneUnits : Int) ≠ 0 := mul_ne_zero h (by decide)
    rw [← decide_not, decide_eq_decide, neg_mul]
    omega
  rw [rn_of_ne_zero (neg_ne_zero.2 h), rn_of_ne_zero h, roundUnits, roundUnits,
    fneg_pack _ ((roundMag_le _ _).trans_lt (by decide)), hsign, neg_mul, Int.natAbs_neg]

end Sys2Proof
end

section
/-! PROOFS. The contents of the five tables (rules R74 to R78) and their range (rule R80). -/

namespace Sys2Proof

open Machine

/-! ### Sine (rule R74) -/

/-- Each word is the sine rounded, but for the error of the series. -/
theorem sinWord_half_spacing {m i : Nat} (hm : 0 < m) (hi : i ≤ m) :
    |((val (sinWord m i) : ℚ) : ℝ) - Real.sin (2 * Real.pi * i / m)|
      ≤ ((spacing (sinWord m i) / 2 : ℚ) : ℝ) + |Real.sin (2 * Real.pi * i / m)| / 2 ^ 60 := by
  obtain ⟨f, hf, hsine⟩ := sinWord_eq_rn hm hi
  have hpos := hsine.den_pos
  have hlt : f.1.natAbs < 2 * f.2 := by have := hsine.num_le; omega
  have hround := rn_half_spacing hpos ((ulpShift_of_lt_two hpos hlt).trans (by decide))
  have hround' : |((val (rn f.1 f.2) : ℚ) : ℝ) - fracVal f|
      ≤ ((spacing (rn f.1 f.2) / 2 : ℚ) : ℝ) := by
    have h := (Rat.cast_le (K := ℝ)).2 hround
    rw [Rat.cast_abs, Rat.cast_sub, Rat.cast_div, Rat.cast_intCast, Rat.cast_natCast] at h
    exact h
  rw [hf]
  exact (abs_sub_le _ (fracVal f) _).trans (add_le_add hround' hsine.near)

@[simp] theorem sinHalf_zero_num (m : Nat) : (sinHalf m 0).1 = 0 := by simp [sinHalf, sinQuarter]

theorem sinWord_zero (m : Nat) : sinWord m 0 = zero false := by simp [sinWord]

theorem sinWord_last {m : Nat} (hm : 0 < m) : sinWord m m = zero false := by
  have hhigh : ¬ 2 * m ≤ m := by omega
  simp [sinWord, hhigh]

/-- The fraction of a sine that is not 0 is not 0. -/
theorem SineFrac.num_ne_zero {f : Int × Nat} {s : ℝ} (h : SineFrac f s) (hs : s ≠ 0) :
    f.1 ≠ 0 := by
  intro h0
  have hnear := h.near
  have hpos := abs_pos.2 hs
  rw [fracVal, h0, Int.cast_zero, zero_div, zero_sub, abs_neg] at hnear
  linarith

theorem sinHalf_num_ne_zero {m t : Nat} (h0 : 0 < t) (ht : t < m) : (sinHalf m t).1 ≠ 0 := by
  have hm : (0 : ℝ) < m := by exact_mod_cast h0.trans ht
  have ht' : (t : ℝ) < m := by exact_mod_cast ht
  refine (sinHalf_sineFrac (h0.trans ht) ht.le).num_ne_zero (Real.sin_pos_of_pos_of_lt_pi ?_ ?_).ne'
  · have : (0 : ℝ) < t := by exact_mod_cast h0
    positivity
  · rw [mul_div_assoc]
    exact mul_lt_of_lt_one_right Real.pi_pos ((div_lt_one hm).2 ht')

theorem sinWord_of_le {m i : Nat} (h : 2 * i ≤ m) :
    sinWord m i = rn (sinHalf m (2 * i)).1 (sinHalf m (2 * i)).2 := if_pos h

/-- An index above the centre holds the negated word of its mirror. -/
theorem sinWord_mirror {m i : Nat} (h0 : 0 < i) (h : 2 * i < m) :
    sinWord m (m - i) = fneg (sinWord m i) := by
  have hhigh : ¬ 2 * (m - i) ≤ m := by omega
  have hback : m - (m - i) = i := by omega
  rw [sinWord, if_neg hhigh, hback, sinWord_of_le h.le, rn_neg (sinHalf_num_ne_zero (by omega) h)]

@[simp] theorem fneg_fneg (x : F32) : fneg (fneg x) = x := by
  rw [fneg, fneg, BitVec.xor_assoc, BitVec.xor_self, BitVec.xor_zero]

/-- The table of an odd `N - 1` is antisymmetric: no index is its own mirror. -/
theorem sinWord_antisymm {m i : Nat} (hodd : m % 2 = 1) (h0 : 0 < i) (h : i < m) :
    sinWord m (m - i) = fneg (sinWord m i) := by
  rcases Nat.lt_or_ge (2 * i) m with hlow | hhigh
  · exact sinWord_mirror h0 hlow
  · have hmirror := sinWord_mirror (m := m) (i := m - i) (by omega) (by omega)
    rw [Nat.sub_sub_self h.le] at hmirror
    rw [hmirror, fneg_fneg]

/-! ### Triangle (rule R75) -/

section Sizes

variable {c : Config}

theorem size_eq_two_mul_half (hL : 1 ≤ c.log2N) : c.size = 2 * c.half := by
  have hdvd : 2 ∣ c.size := dvd_pow_self 2 (by omega)
  exact (Nat.mul_div_cancel' hdvd).symm

theorem four_le_size (hL : 2 ≤ c.log2N) : 4 ≤ c.size :=
  Nat.pow_le_pow_right (n := 2) two_pos hL

theorem triangleWord_of_le {i : Nat} (h : i ≤ c.half) :
    triangleWord c i = rn (4 * i - (c.size - 1)) (c.size - 1) := if_pos h

/-- The ideal of rule R75 as a fraction. -/
theorem triangle_ideal (hL : 2 ≤ c.log2N) (i : Nat) :
    -1 + 4 * (i : ℚ) / ((c.size : ℚ) - 1)
      = ((4 * i - (c.size - 1) : Int) : ℚ) / (c.size - 1 : Nat) := by
  have hsize := four_le_size hL
  have hpos : (0 : ℚ) < (c.size : ℚ) - 1 := by
    have : (4 : ℚ) ≤ c.size := by exact_mod_cast hsize
    linarith
  rw [Nat.cast_sub (by omega)]
  push_cast
  field_simp
  ring

/-- The rising half stays below 2 in magnitude. -/
theorem triangle_num_lt (hL : 2 ≤ c.log2N) {i : Nat} (h : i ≤ c.half) :
    (4 * i - (c.size - 1) : Int).natAbs < 2 * (c.size - 1) := by
  have := four_le_size hL
  have := size_eq_two_mul_half (c := c) (by omega)
  omega

theorem triangleWord_mirror (hL : 2 ≤ c.log2N) {i : Nat} (h0 : 1 ≤ i) (h : i ≤ c.half) :
    triangleWord c (c.size - i) = triangleWord c i := by
  have hsize := size_eq_two_mul_half (c := c) (by omega)
  rcases h.eq_or_lt with rfl | hlt
  · rw [hsize]; congr 1; omega
  · have hback : ((c.size : Int) - (c.size - i : Nat)) = i := by omega
    rw [triangleWord, if_neg (by omega), hback, triangleWord_of_le h]

/-- Every word but the peak is of magnitude at most 1. -/
theorem triangleWord_unit (hL : 2 ≤ c.log2N) {i : Nat} (hi : i < c.size) (hpeak : i ≠ c.half) :
    isFinite (triangleWord c i) = true ∧ |val (triangleWord c i)| ≤ 1 := by
  have hfour := four_le_size hL
  have hsize := size_eq_two_mul_half (c := c) (by omega)
  have hrising {j : Nat} (hj : j < c.half) :
      isFinite (triangleWord c j) = true ∧ |val (triangleWord c j)| ≤ 1 := by
    obtain ⟨hfin, hle, -⟩ := rn_unit (num := 4 * j - (c.size - 1)) (den := c.size - 1)
      (by omega) (by omega)
    rw [triangleWord_of_le hj.le]
    exact ⟨hfin, hle⟩
  rcases Nat.lt_or_ge i c.half with hlow | hhigh
  · exact hrising hlow
  · have hmirror := triangleWord_mirror hL (i := c.size - i) (by omega) (by omega)
    rw [Nat.sub_sub_self hi.le] at hmirror
    rw [hmirror]
    exact hrising (by omega)

/-- A real -1 is stored as the datum -1. -/
theorem rn_neg_one {d : Nat} (hd : 0 < d) : rn (-(d : Int)) d = 0xBF800000#32 := by
  have hne : (-(d : Int)) ≠ 0 := by omega
  have habs : (-(d : Int) * oneUnits).natAbs = 2 ^ 149 * d := by
    rw [Int.natAbs_mul, Int.natAbs_neg, Int.natAbs_natCast, Int.natAbs_natCast, oneUnits, Nat.mul_comm]
  have hneg : (-(d : Int) * oneUnits) < 0 :=
    mul_neg_of_neg_of_pos (by omega) (by decide)
  rw [rn_of_ne_zero hne, roundUnits, habs, roundMag_one hd, decide_eq_true hneg]
  decide

/-! ### Saw (rule R76) -/

/-- A fraction of at most 24 significant bits over a small power of two is its own rounding. -/
theorem val_rn_two_pow {num : Int} {L : Nat} (hL : L ≤ 23) (h : num.natAbs ≤ 2 ^ L) :
    val (rn num (2 ^ L)) = num / (2 ^ L : Nat) := by
  have hpow : 2 ^ L ≤ 2 ^ 23 := Nat.pow_le_pow_right two_pos hL
  have hd : 0 < 2 ^ L := by positivity
  have hunits := units_roundUnits_of_significand (m := num) (e := 149 - L) (by omega) (by omega)
  refine val_rn_of_val hd ((ulpShift_of_lt_two hd (by omega)).trans (by decide))
    (y := roundUnits (num * 2 ^ (149 - L)) 1) ?_
  have hsplit : (2 : ℚ) ^ 149 = 2 ^ (149 - L) * 2 ^ L := by rw [← pow_add]; congr 1; omega
  rw [val, hunits, hsplit]
  push_cast
  field_simp

/-- The numerator of rule R76 is at most `N` in magnitude. -/
theorem saw_num_le (hL : 2 ≤ c.log2N) (i : Nat) :
    (4 * (i % c.half : Nat) - c.size : Int).natAbs ≤ c.size := by
  have hfour := four_le_size hL
  have hsize := size_eq_two_mul_half (c := c) (by omega)
  have hmod := Nat.mod_lt i (show 0 < c.half by omega)
  omega

/-- Rule R76: the words are exact. -/
theorem val_sawWord (hL : 2 ≤ c.log2N) (hL' : c.log2N ≤ 23) (i : Nat) :
    val (sawWord c i) = -1 + 4 * ((i % c.half : Nat) : ℚ) / (c.size : ℚ) := by
  have hpos : (0 : ℚ) < c.size := by exact_mod_cast size_pos c
  have h := val_rn_two_pow hL' (saw_num_le hL i)
  rw [← Config.size] at h
  rw [sawWord, h]
  generalize i % c.half = j
  push_cast
  field_simp
  ring

theorem sawWord_of_val_eq_zero (hL : 2 ≤ c.log2N) (hL' : c.log2N ≤ 23) {i : Nat}
    (h : val (sawWord c i) = 0) : sawWord c i = zero false := by
  have hpos : (c.size : ℚ) ≠ 0 := by exact_mod_cast (size_pos c).ne'
  have hexact := val_rn_two_pow hL' (saw_num_le hL i)
  rw [← Config.size, ← sawWord, h, eq_comm, div_eq_zero_iff, or_iff_left hpos,
    Int.cast_eq_zero] at hexact
  rw [sawWord, hexact, rn_zero]

/-- The ramp ends one step of `4/N` below 1. -/
theorem val_sawWord_le (hL : 2 ≤ c.log2N) (hL' : c.log2N ≤ 23) (i : Nat) :
    val (sawWord c i) ≤ 1 - 4 / (c.size : ℚ) := by
  have hpos : (0 : ℚ) < c.size := by exact_mod_cast size_pos c
  have hfour := four_le_size hL
  have hsize := size_eq_two_mul_half (c := c) (by omega)
  have hmod := Nat.mod_lt i (show 0 < c.half by omega)
  have hlast : 4 * ((i % c.half : Nat) : ℚ) + 4 ≤ 2 * c.size := by
    exact_mod_cast (by omega : 4 * (i % c.half) + 4 ≤ 2 * c.size)
  have hramp : 4 * ((i % c.half : Nat) : ℚ) / c.size + 4 / c.size ≤ 2 := by
    rwa [← add_div, div_le_iff₀ hpos]
  rw [val_sawWord hL hL']
  linarith

theorem val_sawWord_top (hL : 2 ≤ c.log2N) (hL' : c.log2N ≤ 23) :
    val (sawWord c (c.half - 1)) = 1 - 4 / (c.size : ℚ) := by
  have hpos : (0 : ℚ) < c.size := by exact_mod_cast size_pos c
  have hfour := four_le_size hL
  have hsize := size_eq_two_mul_half (c := c) (by omega)
  have htop : 4 * ((c.half - 1 : Nat) : ℚ) = 2 * c.size - 4 := by
    rw [Nat.cast_sub (by omega), hsize]; push_cast; ring
  rw [val_sawWord hL hL', Nat.mod_eq_of_lt (by omega), htop]
  field_simp
  ring

end Sizes

/-! ### Square and noise (rules R77, R78) -/

theorem squareWord_eq (c : Config) (i : Nat) :
    squareWord c i = if i < c.half then 0x00000000#32 else 0x3F800000#32 := by
  unfold squareWord
  split <;> decide +kernel

/-- A value of at most 1 in magnitude, in units. -/
theorem abs_val_le_one_iff (x : F32) : |val x| ≤ 1 ↔ mag x ≤ oneUnits := by
  rw [val, abs_div, ← Int.cast_abs, abs_units, abs_of_pos (by positivity : (0 : ℚ) < 2 ^ 149),
    div_le_one (by positivity), oneUnits, ← Nat.cast_le (α := ℚ)]
  push_cast
  rfl

theorem noiseOk_iff (w : F32) : noiseOk w = true ↔ isFinite w = true ∧ |val w| ≤ 1 := by
  rw [noiseOk, Bool.and_eq_true, decide_eq_true_eq, abs_val_le_one_iff]

/-! ### Range (rule R80) -/

/-- Every word of this hardware but the triangle's peak is of magnitude at most 1. -/
theorem rom_unit (draw : Nat) {k : Kind} {i : Nat} (hi : i < Config.hw.size)
    (hpeak : ¬ (k = .triangle ∧ i = 16384)) :
    isFinite (rom Config.hw draw k i) = true ∧ |val (rom Config.hw draw k i)| ≤ 1 := by
  cases k with
  | sine =>
    obtain ⟨hfin, hle, -⟩ := hardwareParametersAreLegal.sin_ok i hi
    exact ⟨hfin, hle⟩
  | triangle => exact triangleWord_unit (by decide) hi fun h => hpeak ⟨rfl, h⟩
  | saw =>
    obtain ⟨hfin, hle, -⟩ := rn_unit (size_pos Config.hw) (saw_num_le (by decide) i)
    exact ⟨hfin, hle⟩
  | square =>
    rw [rom, squareWord_eq, abs_val_le_one_iff]
    split <;> decide +kernel
  | noise => exact (noiseOk_iff _).1 (noiseOk_noiseClip _)

/-- The triangle's peak, a little above 1. -/
theorem triangleWord_peak : triangleWord Config.hw 16384 = 0x3F800200#32 := by decide +kernel

theorem val_triangleWord_peak : val (triangleWord Config.hw 16384) = 1 + 1 / 2 ^ 14 := by
  have hunits : units 0x3F800200#32 = (2 ^ 14 + 1) * 2 ^ 135 := by decide +kernel
  rw [triangleWord_peak, val, hunits]
  norm_num

/-! ### The statements -/

/-- Settles O21: each word is the rounding of a fraction within `2^-60` of its sine, and no index is
its own mirror. -/
theorem sineTableFollowsTheSine : Obligations.SineTableFollowsTheSine := by
  refine ⟨fun L hL _ i hi => ?_, fun _ _ => rfl⟩
  have hpow : 2 ^ 2 ≤ 2 ^ L := Nat.pow_le_pow_right two_pos hL
  have hodd : (2 ^ L - 1) % 2 = 1 := by
    have : 2 ∣ 2 ^ L := dvd_pow_self 2 (by omega)
    omega
  have hhalf := sinWord_half_spacing (m := 2 ^ L - 1) (i := i) (by omega) (by omega)
  rw [Nat.cast_sub (by omega), Nat.cast_pow, Nat.cast_ofNat, Nat.cast_one] at hhalf
  exact ⟨sinWord_sineWordOk (by omega) hi, hhalf, sinWord_zero _, sinWord_last (by omega),
    sinWord_antisymm hodd⟩

/-- Settles O22: the rising half is `RN` of its ideal, the rest its mirror, and this hardware's words
by evaluation. -/
theorem triangleTableIsTheMirroredRamp : Obligations.TriangleTableIsTheMirroredRamp := by
  refine ⟨fun c draw hL _ => ⟨fun i hi => ?_, fun i => triangleWord_mirror hL, ?_⟩, fun draw => ?_⟩
  · have hpos : 0 < c.size - 1 := by have := four_le_size hL; omega
    have hlt := triangle_num_lt hL hi
    rw [triangle_ideal hL, rom, triangleWord_of_le hi]
    exact ⟨isFinite_rn_of_lt_two hpos hlt,
      fun y _ => rn_nearest hpos ((ulpShift_of_lt_two hpos hlt).trans (by decide)) y⟩
  · have hsize := four_le_size hL
    have hnum : (4 * (0 : Nat) - (c.size - 1) : Int) = -((c.size - 1 : Nat) : Int) := by omega
    rw [rom, triangleWord_of_le (Nat.zero_le _), hnum, rn_neg_one (by omega)]
  · simp only [rom, triangleWord_peak]
    decide +kernel

/-- Settles O23: the numerators are at most `N`, so the words are exact and the rest is arithmetic of
their values. -/
theorem sawTableIsTwoExactRamps : Obligations.SawTableIsTwoExactRamps := by
  intro c draw hL hL' i hi
  simp only [rom]
  obtain ⟨hfin, -, -⟩ := rn_unit (size_pos c) (saw_num_le hL i)
  exact ⟨hfin, val_sawWord hL hL' i, fun _ => by rw [sawWord, Nat.add_mod_right, sawWord],
    sawWord_of_val_eq_zero hL hL', val_sawWord_le hL hL' i, val_sawWord_top hL hL'⟩

/-- Settles O24, by the two words a square table holds. -/
theorem squareTableIsZeroThenOne : Obligations.SquareTableIsZeroThenOne := fun c _ i =>
  ⟨fun h => (squareWord_eq c i).trans (if_pos h),
    fun h => (squareWord_eq c i).trans (if_neg (Nat.not_lt_of_le h))⟩

/-- Settles O25: the limit passes exactly the words that meet the clause. -/
theorem noiseWordsMeetTheirRangeAndNoMore : Obligations.NoiseWordsMeetTheirRangeAndNoMore :=
  ⟨fun _ _ => (noiseOk_iff _).1 (noiseOk_noiseClip _),
    fun w hfin hle => if_pos ((noiseOk_iff w).2 ⟨hfin, hle⟩)⟩

/-- Settles O26: every word but the peak is of magnitude at most 1, and the peak is `1 + 2^-14`. -/
theorem tableWordsStayInRange : Obligations.TableWordsStayInRange := by
  intro draw k i hi
  by_cases hpeak : k = .triangle ∧ i = 16384
  · obtain ⟨rfl, rfl⟩ := hpeak
    have hfin : isFinite (triangleWord Config.hw 16384) = true := by rw [triangleWord_peak]; decide
    have hval : val (rom Config.hw draw .triangle 16384) = 1 + 1 / 2 ^ 14 := val_triangleWord_peak
    rw [hval]
    exact ⟨hfin, by norm_num, by norm_num, fun h => absurd ⟨rfl, rfl⟩ h⟩
  · obtain ⟨hfin, hle⟩ := rom_unit draw hi hpeak
    obtain ⟨hlo, hhi⟩ := abs_le.1 hle
    exact ⟨hfin, hlo, hhi.trans (by norm_num), fun _ => hhi⟩

end Sys2Proof
end

section
/-! PROOFS. Oscillator control (rules R90 to R96): the next state of SETWT, SETSR, SETFQ, OSCRST and
RDREG on this hardware, in and out of contract, and that every well-formed command completes. -/

namespace Sys2Proof.Machine

variable {c : Config} {i : Instr} {s t : State}

/-! ### Completion (rules R96, R143, R172) -/

/-- On this hardware a command that completes is executed to its next state. -/
theorem Completes.exec_eq (h : Completes Config.hw s i t) : exec i s = .next t :=
  (exec_eq_execWith i s).trans h.execWith_eq

theorem exists_osc?_of_oscOk {j : BitVec 4} (hj : oscOk c j = true)
    (hs : s.oscs.length = c.numOsc) : ∃ o, osc? s j = some o := by
  have hlt : j.toNat < s.oscs.length := hs ▸ of_decide_eq_true hj
  exact ⟨s.oscs[j.toNat], List.getElem?_eq_getElem hlt⟩

/-- A well-formed command completes whether or not it is in contract: `Completes` has a case for
either. -/
theorem exists_completes_of_wellFormedWith (hi : wellFormedWith c i = true)
    (hs : s.oscs.length = c.numOsc) : ∃ t, Completes c s i t := by
  cases i with
  | warmup => exact ⟨_, .warmup⟩
  | tabrd k x => exact ⟨_, .tabrd (of_decide_eq_true hi)⟩
  | setwt j k =>
    obtain ⟨o, ho⟩ := exists_osc?_of_oscOk hi hs
    exact ⟨_, .setwt ho⟩
  | oscrst j =>
    obtain ⟨o, ho⟩ := exists_osc?_of_oscOk hi hs
    exact ⟨_, .oscrst ho⟩
  | setsr j f =>
    obtain ⟨o, ho⟩ := exists_osc?_of_oscOk hi hs
    cases hc : setterInContract o f with
    | true => exact ⟨_, .setsr ho hc⟩
    | false => exact ⟨_, .setsrOut ho hc⟩
  | setfq j f =>
    obtain ⟨o, ho⟩ := exists_osc?_of_oscOk hi hs
    cases hc : setterInContract o f with
    | true => exact ⟨_, .setfq ho hc⟩
    | false => exact ⟨_, .setfqOut ho hc⟩
  | next j =>
    obtain ⟨o, ho⟩ := exists_osc?_of_oscOk hi hs
    cases hc : nextInContract c o with
    | true => exact ⟨_, .next ho hc⟩
    | false => exact ⟨_, .nextOut ho hc⟩
  | rdreg j r =>
    obtain ⟨o, ho⟩ := exists_osc?_of_oscOk hi hs
    cases hr : o.undef && isFloatReg r with
    | true => exact ⟨_, .rdregFree ho hr⟩
    | false => exact ⟨_, .rdreg ho hr⟩

/-! ### The setters' increment (rule R90) and the values of a creation (rules R25, R94) -/

/-- On this hardware the increment is formed with the datum of 32768. -/
theorem deltaOf_hw (f r : F32) :
    deltaOf Config.hw.log2N f r = fdiv (fmul f 0x47000000#32) r := by
  have hsize : sizeF Config.hw.log2N = 0x47000000#32 := by decide +kernel
  rw [deltaOf, hsize]

theorem setterInContract_of_isPos {o : Osc} {f : F32} (hdef : o.undef = false)
    (hf : isPos f = true) : setterInContract o f = true := by
  simp [setterInContract, hdef, hf]

theorem created_hw : Osc.created Config.hw
    = ⟨.sine, 0x43DC0000#32, 0x472C4400#32, 0x43A377EE#32, 0x00000000#32, false⟩ := by
  decide +kernel

/-! ### Register words (rules R10, R21, R22) -/

theorem toNat_zero_append {m n : Nat} (x : BitVec n) : (0#m ++ x).toNat = x.toNat := by
  simp [BitVec.toNat_append]

theorem toNat_regValue_kind (s : State) (o : Osc) :
    (regValue c s o .kind).toNat = kindCode o.kind :=
  (toNat_zero_append (kindBits o.kind)).trans (toNat_kindBits o.kind)

/-- Register BUILT as a number: each flag counts its power of two. -/
theorem toNat_builtWord (b : Built) :
    (builtWord b).toNat = (if b.sine then 1 else 0) + (if b.triangle then 2 else 0)
      + (if b.saw then 4 else 0) + (if b.square then 8 else 0) + (if b.noise then 16 else 0) := by
  obtain ⟨b0, b1, b2, b3, b4⟩ := b
  revert b0 b1 b2 b3 b4
  decide

/-! ### RDREG in and out of contract (rules R95, R143) -/

/-- RDREG of any oscillator answers once and changes nothing but the stream and the model's counter of
free values; a register that no condition takes away is answered as it stands. -/
theorem exists_exec_rdreg {j : BitVec 4} {o : Osc} (ho : osc? s j = some o) (r : Reg) :
    ∃ t w, exec (.rdreg j r) s = .next t ∧ t.responses = s.responses ++ [w]
      ∧ (isFloatReg r = false → w = regValue Config.hw s o r)
      ∧ t.oscs = s.oscs ∧ sameTables s t ∧ sameRest s t := by
  cases hr : o.undef && isFloatReg r with
  | false =>
    exact ⟨_, _, (Completes.rdreg ho hr).exec_eq, rfl, fun _ => rfl, rfl, ⟨rfl, rfl⟩, rfl, rfl⟩
  | true =>
    have hfloat : isFloatReg r = true := (Bool.and_eq_true_iff.1 hr).2
    exact ⟨_, _, (Completes.rdregFree ho hr).exec_eq, rfl, fun hno => by simp [hfloat] at hno,
      rfl, ⟨rfl, rfl⟩, rfl, rfl⟩

end Sys2Proof.Machine

namespace Sys2Proof

open Machine

/-! ### The command words (rule R51) -/

theorem toNat_encode_setwt (j : BitVec 4) (k : Kind) :
    (encode (.setwt j k)).toNat = j.toNat * 2 ^ 36 + 0x0200000000 + kindCode k := by
  rw [encode, toNat_cmdWord, toNat_zero_append, toNat_kindBits]
  rfl

theorem toNat_encode_rdreg (j : BitVec 4) (r : Reg) :
    (encode (.rdreg j r)).toNat = j.toNat * 2 ^ 36 + 0x0700000000 + (regNumber r).toNat := by
  rw [encode, toNat_cmdWord, toNat_zero_append]
  rfl

theorem toNat_encode_oscrst (j : BitVec 4) :
    (encode (.oscrst j)).toNat = j.toNat * 2 ^ 36 + 0x0800000000 := by
  simp [encode, toNat_cmdWord]

/-! ### The statements -/

/-- Settles O43: the oscillator takes the kind and the table store is what `GetTable` leaves. -/
theorem setwtSelectsTheTable : Obligations.SetwtSelectsTheTable := by
  refine ⟨fun j k s o ho => ⟨_, (Completes.setwt ho).exec_eq, ?_⟩, toNat_encode_setwt⟩
  exact ⟨by simp, getTable_demanded Config.hw k s, by simp [isBuilt_getTable], by simp, by simp,
    by simp [sameRest]⟩

/-- Settles O51: KIND, BUILT and GEOM are the registers that the condition does not take away. -/
theorem rdregOfAnUndefinedOscillator : Obligations.RdregOfAnUndefinedOscillator := by
  intro j r s o ho _
  obtain ⟨t, w, hexec, hresp, hword, hframe⟩ := exists_exec_rdreg ho r
  refine ⟨t, w, hexec, hresp, ?_, ?_, ?_, hframe⟩
  · rintro rfl
    rw [hword rfl, toNat_regValue_kind]
  · rintro rfl
    exact hword rfl
  · rintro rfl
    exact hword rfl

/-- Settles O55: a well-formed command addresses the one oscillator, or an index of the table. -/
theorem everyWellFormedCommandCompletes : Obligations.EveryWellFormedCommandCompletes := by
  intro i s hi hs
  obtain ⟨t, ht⟩ := exists_completes_of_wellFormedWith (c := Config.hw) hi hs
  exact ⟨t, ht.exec_eq⟩

/-- Settles O44: the in-contract next state of SETSR, with the increment of this hardware. -/
theorem setsrStoresTheRate : Obligations.SetsrStoresTheRate := by
  refine ⟨fun j f s o ho hdef hf => ?_, fun j f => toNat_cmdWord j 3#4 f, by decide +kernel⟩
  rw [← deltaOf_hw]
  exact (Completes.setsr ho (setterInContract_of_isPos hdef hf)).exec_eq

/-- Settles O45: the in-contract next state of SETFQ, with the increment of this hardware. -/
theorem setfqStoresTheFrequency : Obligations.SetfqStoresTheFrequency := by
  refine ⟨fun j f s o ho hdef hf => ?_, fun j f => toNat_cmdWord j 4#4 f, by decide +kernel⟩
  rw [← deltaOf_hw]
  exact (Completes.setfq ho (setterInContract_of_isPos hdef hf)).exec_eq

/-- Settles O46: the oscillator is created again, whether or not it was undefined. -/
theorem oscrstRecreatesTheOscillator : Obligations.OscrstRecreatesTheOscillator := by
  refine ⟨fun j s o ho => ?_, toNat_encode_oscrst⟩
  rw [← created_hw]
  exact (Completes.oscrst ho).exec_eq

/-- Settles O47: on a defined oscillator RDREG answers `regValue`, register by register. -/
theorem rdregAnswersTheRegister : Obligations.RdregAnswersTheRegister := by
  refine ⟨fun j r s o ho hdef => ⟨regValue Config.hw s o r,
    (Completes.rdreg ho (by rw [hdef, Bool.false_and])).exec_eq, ?_⟩, toNat_encode_rdreg⟩
  refine ⟨?_, ?_, ?_, ?_, ?_, ?_, ?_⟩ <;> rintro rfl
  · exact toNat_regValue_kind s o
  · rfl
  · rfl
  · rfl
  · rfl
  · exact toNat_builtWord s.built
  · rfl

end Sys2Proof
end

section
/-! PROOFS. A finite datum is its own rounding (rules R121, R122), so it is found again from its sign
and its value; and what that gives for the interpolation at fraction zero (rule R110). -/

namespace Sys2Proof

variable {x y : F32}

/-! ### A finite datum is its own rounding -/

/-- Rounding the magnitude of a finite datum gives its own pattern. -/
theorem pack_roundMag_mag (hx : isFinite x = true) :
    pack (signBit x) (roundMag (mag x) 1) = x := by
  have hfrac : fracField x < 2 ^ 23 := (x.extractLsb' 0 23).isLt
  have hexp : expField x < 2 ^ 8 := (x.extractLsb' 23 8).isLt
  have hne : expField x ≠ 255 := by simpa [isFinite] using hx
  have hpattern : roundMag (mag x) 1 = expField x * 2 ^ 23 + fracField x := by
    unfold mag
    split
    · next h0 =>
      have h := roundMag_exact (m := fracField x) (e := 0) (by omega) (.inl rfl) (by decide)
      rwa [Nat.pow_zero, Nat.mul_one, ← h0] at h
    · rw [roundMag_exact (by omega) (.inr (by omega)) (by omega)]
      omega
  rw [hpattern, pack_fields]

/-- A finite datum is known by its sign and its value. -/
theorem eq_of_signBit_of_units (hx : isFinite x = true) (hy : isFinite y = true)
    (hsign : signBit x = signBit y) (hunits : units x = units y) : x = y := by
  rw [← pack_roundMag_mag hx, ← pack_roundMag_mag hy, ← natAbs_units x, ← natAbs_units y, hsign,
    hunits]

theorem eq_zero_of_units (hx : isFinite x = true) (h : units x = 0) : x = zero (signBit x) :=
  eq_of_signBit_of_units hx (isFinite_zero _) (signBit_pack _ (by decide)).symm
    (h.trans (units_zero _).symm)

theorem signBit_eq_decide_units_neg (h : units x ≠ 0) : signBit x = decide (units x < 0) := by
  unfold units at h ⊢
  cases hs : signBit x <;> simp [hs] at h ⊢
  omega

/-- A factor common to a fraction's two sides does not change its rounding. -/
theorem roundMag_mul_right (n : Nat) {d : Nat} (hd : 0 < d) :
    roundMag (n * d) d = roundMag n 1 := by
  have hround (k : Nat) : roundHalfEven (n * d) (d * k) = roundHalfEven n (1 * k) := by
    have hmod : n * d % (d * k) = d * (n % k) := by rw [Nat.mul_comm n, Nat.mul_mod_mul_left]
    have hdiv : n * d / (d * k) = n / k := by rw [Nat.mul_comm n, Nat.mul_div_mul_left _ _ hd]
    have hlt (a b : Nat) : d * a < d * b ↔ a < b := Nat.mul_lt_mul_left hd
    simp only [roundHalfEven, hmod, hdiv, Nat.one_mul, Nat.mul_left_comm 2 d, hlt]
  rw [roundMag, roundMag, Nat.mul_div_cancel n hd, Nat.div_one, hround]

/-- A non-zero datum's value, given as a fraction, is rounded to that datum. -/
theorem roundUnits_units_mul {d : Nat} (hd : 0 < d) (hx : isFinite x = true) (h : units x ≠ 0) :
    roundUnits (units x * d) d = x := by
  have hneg : decide (units x * d < 0) = signBit x := by
    rw [signBit_eq_decide_units_neg h, decide_eq_decide]
    have hd' : (0 : Int) < d := by exact_mod_cast hd
    exact ⟨fun h => neg_of_mul_neg_left h hd'.le, fun h => mul_neg_of_neg_of_pos h hd'⟩
  rw [roundUnits, hneg, Int.natAbs_mul, Int.natAbs_natCast, natAbs_units, roundMag_mul_right _ hd,
    pack_roundMag_mag hx]

/-! ### Sums and products with a zero (rule R122) -/

/-- The sum of two finite data. -/
theorem fadd_of_isFinite (hx : isFinite x = true) (hy : isFinite y = true) :
    fadd x y = if units x + units y = 0 then zero (signBit x && signBit y)
      else roundUnits (units x + units y) 1 := by
  simp [fadd, addWith, isNaN_of_isFinite, isInf_of_isFinite, hx, hy]

/-- A zero added to a datum leaves it, but for the sign of a zero. -/
theorem fadd_of_units_eq_zero (hx : isFinite x = true) (h0 : units x = 0) (hy : isFinite y = true) :
    fadd x y = if units y = 0 then zero (signBit x && signBit y) else y := by
  rw [fadd_of_isFinite hx hy, h0, zero_add]
  split
  · rfl
  · next h => simpa using roundUnits_units_mul one_pos hy h

/-- A zero times a finite datum is a zero. -/
theorem fmul_of_units_eq_zero (hx : isFinite x = true) (h0 : units x = 0) (hy : isFinite y = true) :
    fmul x y = zero (signBit x != signBit y) := by
  have hround : roundMag 0 oneUnits = 0 := by decide +kernel
  simp [fmul, isNaN_of_isFinite, isInf_of_isFinite, hx, hy, units_eq_zero.1 h0, hround, zero]

/-! ### The interpolation at fraction zero (rules R108, R110) -/

/-- In either rounding mode the product with the fraction drops out, and only a zero `a` may change its
sign. -/
theorem lerp_of_units_eq_zero (mode : LerpMode) {frac a b : F32} (h0 : units frac = 0)
    (hfrac : isFinite frac = true) (ha : isFinite a = true) (hd : isFinite (fsub b a) = true) :
    ∃ neg, lerp mode frac a b = if units a = 0 then zero (neg && signBit a) else a := by
  cases mode with
  | unfused =>
    rw [lerp, fmul_of_units_eq_zero hfrac h0 hd,
      fadd_of_units_eq_zero (isFinite_zero _) (units_zero _) ha]
    exact ⟨_, rfl⟩
  | fused =>
    refine ⟨signBit frac != signBit (fsub b a), ?_⟩
    have hone : (oneUnits : Int) ≠ 0 := by decide
    simp only [lerp, ffma, isNaN_of_isFinite, isInf_of_isFinite, hfrac, ha, hd, h0,
      units_eq_zero.1 h0, Bool.or_false, Bool.false_eq_true, if_false, zero_mul, zero_add,
      mul_eq_zero, hone, or_false, BEq.rfl, Bool.true_or, Bool.true_and]
    split
    · rfl
    · next h => exact roundUnits_units_mul (by decide) ha h

/-- Settles O41: a zero fraction leaves `a`, and a zero `a` keeps its sign unless that is negative. -/
theorem zeroFractionReturnsTheTableWord : Obligations.ZeroFractionReturnsTheTableWord := by
  intro mode frac a b h0 hfrac ha _ hd
  obtain ⟨neg, h⟩ := lerp_of_units_eq_zero mode h0 hfrac ha hd
  rw [h]
  split
  · next hunits =>
    have hzero := eq_zero_of_units ha hunits
    refine ⟨by rw [hzero, val_zero, val_zero], fun hne => ?_⟩
    cases hs : signBit a <;> rw [hs] at hzero
    · rw [Bool.and_false, hzero]
    · exact absurd hzero hne
  · exact ⟨rfl, fun _ => rfl⟩

end Sys2Proof
end

section
/-! PROOFS. Phases on the grid of `q = 2^(L - 23)` (rule R111): the sum of two is exact, the advance
counts modulo the `2^23` steps of a table, and no phase takes a negative sign. -/

namespace Sys2Proof

variable {L a b : Nat} {x y d : F32}

/-! ### Comparison with the table size (rules R124, R125) -/

theorem fge_iff (hx : isFinite x = true) (hy : isFinite y = true) :
    fge x y = true ↔ units y ≤ units x := by
  simp [fge, isNaN_of_isFinite hx, isNaN_of_isFinite hy]

theorem val_le_val_iff : val y ≤ val x ↔ units y ≤ units x := by
  rw [val, val, div_le_div_iff_of_pos_right (by positivity), Int.cast_le]

theorem val_sizeF (hL : L ≤ 23) : val (sizeF L) = 2 ^ L := by
  rw [val, (sizeF_exact hL).2, Nat.pow_add]
  push_cast
  exact mul_div_cancel_right₀ _ (by positivity)

/-- The comparison of the advance, by value. -/
theorem fge_sizeF_iff (hL : L ≤ 23) (hx : isFinite x = true) :
    fge x (sizeF L) = true ↔ 2 ^ L ≤ val x := by
  rw [fge_iff hx (sizeF_exact hL).1, ← val_le_val_iff, val_sizeF hL]

/-- Rule R131: the rounded sum of two data in range is finite. -/
theorem isFinite_fadd_of_inRange (hL : L ≤ 23) (hx : inRange L x = true) (hy : inRange L y = true) :
    isFinite (fadd x y) = true := by
  obtain ⟨n, hn, hsum⟩ := units_fadd_lt hL hx hy
  exact isFinite_of_mag_lt (k := L + 150) (by omega) (by rwa [mag_of_units hsum])

/-! ### Signs (rule R122) -/

/-- A sum that is not negative has a negative sign only as a sum of two negative zeros. -/
theorem signBit_fadd (hx : isFinite x = true) (hy : isFinite y = true) (hsign : signBit x = false)
    (hsum : 0 ≤ units x + units y) : signBit (fadd x y) = false := by
  rw [fadd_of_isFinite hx hy, hsign, Bool.false_and]
  split
  · decide
  · rw [signBit_roundUnits, decide_eq_false hsum.not_gt]

/-- The advance of a phase that has no negative sign has none. -/
theorem signBit_advance (hL : L ≤ 23) (hx : inRange L x = true) (hd : inRange L d = true)
    (hsign : signBit x = false) : signBit (advance L x d) = false := by
  obtain ⟨hfx, m, -, hux⟩ := inRange_iff.1 hx
  obtain ⟨hfd, n, -, hud⟩ := inRange_iff.1 hd
  obtain ⟨hfs, -⟩ := sizeF_exact hL
  have hsum := isFinite_fadd_of_inRange hL hx hd
  have hpos : signBit (fadd x d) = false := signBit_fadd hfx hfd hsign (by omega)
  unfold advance
  split
  · next h =>
    have hle := (fge_iff hsum hfs).1 h
    rw [fsub_eq_fadd_fneg hsum hfs]
    exact signBit_fadd hsum (by rw [isFinite_fneg, hfs]) hpos (by rw [units_fneg]; omega)
  · exact hpos

/-! ### The grid -/

/-- `x` is `a` steps of `q = 2^(L - 23)`, which is `2^(L + 126)` units, and below the table size. -/
structure OnGrid (L a : Nat) (x : F32) : Prop where
  lt : a < 2 ^ 23
  units_eq : units x = (a * 2 ^ (L + 126) : Nat)

/-- The table size, in units, is `2^23` steps of the grid. -/
theorem size_units_eq (L : Nat) : 2 ^ (L + 149) = 2 ^ 23 * 2 ^ (L + 126) := by ring

theorem val_mul_eq_iff (hL : L ≤ 23) :
    val x * 2 ^ (23 - L) = a ↔ units x = (a * 2 ^ (L + 126) : Nat) := by
  have hsplit : (2 ^ 149 : ℚ) = 2 ^ (L + 126) * 2 ^ (23 - L) := by rw [← pow_add]; congr 1; omega
  rw [val, hsplit, div_mul_eq_mul_div, mul_div_mul_right _ _ (by positivity),
    div_eq_iff (by positivity)]
  exact_mod_cast Iff.rfl

theorem onGrid_of_val (hL : L ≤ 23) (hx : inRange L x = true) (h : val x * 2 ^ (23 - L) = a) :
    OnGrid L a x := by
  have hunits := (val_mul_eq_iff hL).1 h
  obtain ⟨-, n, hn, hn'⟩ := inRange_iff.1 hx
  rw [hunits, Int.natCast_inj] at hn'
  rw [← hn', size_units_eq] at hn
  exact ⟨Nat.lt_of_mul_lt_mul_right hn, hunits⟩

theorem OnGrid.inRange (hL : L ≤ 23) (h : OnGrid L a x) : inRange L x = true :=
  inRange_of_units hL h.units_eq <| by
    rw [size_units_eq]
    exact Nat.mul_lt_mul_of_pos_right h.lt (Nat.two_pow_pos _)

/-- The sum of two data on the grid has 24 significant bits at most, so it is exact. -/
theorem units_fadd_of_onGrid (hL : L ≤ 23) (hx : OnGrid L a x) (hd : OnGrid L b d) :
    units (fadd x d) = ((a + b) * 2 ^ (L + 126) : Nat) := by
  have hsum : units x + units d = ((a + b) * 2 ^ (L + 126) : Nat) := by
    rw [hx.units_eq, hd.units_eq, Nat.add_mul, Nat.cast_add]
  have hlt : a + b < 2 ^ 24 := by have := hx.lt; have := hd.lt; omega
  rw [units_fadd (inRange_iff.1 (hx.inRange hL)).1 (inRange_iff.1 (hd.inRange hL)).1 hsum,
    mag_roundMag_of_significand false hlt (by omega)]

/-- Rule R109 on the grid: the advance adds the steps modulo the `2^23` of a table. -/
theorem onGrid_advance (hL : L ≤ 23) (hx : OnGrid L a x) (hd : OnGrid L b d) :
    OnGrid L ((a + b) % 2 ^ 23) (advance L x d) := by
  refine ⟨Nat.mod_lt _ (by decide), ?_⟩
  have ha := hx.lt
  have hb := hd.lt
  have hsum := units_fadd_of_onGrid hL hx hd
  have hfin := isFinite_fadd_of_inRange hL (hx.inRange hL) (hd.inRange hL)
  have hsize := size_units_eq L
  have hge : fge (fadd x d) (sizeF L) = true ↔ 2 ^ 23 ≤ a + b := by
    rw [fge_iff hfin (sizeF_exact hL).1, (sizeF_exact hL).2, hsum, Nat.cast_le, hsize,
      Nat.mul_le_mul_right_iff (by positivity)]
  unfold advance
  split
  · next h =>
    have hle := hge.1 h
    have hlo : 2 ^ (L + 149) ≤ (a + b) * 2 ^ (L + 126) := by
      rw [hsize]; exact Nat.mul_le_mul_right _ hle
    have hhi : (a + b) * 2 ^ (L + 126) < 2 ^ (L + 150) := by
      have hdouble : 2 ^ (L + 150) = 2 ^ 24 * 2 ^ (L + 126) := by ring
      rw [hdouble]
      exact Nat.mul_lt_mul_of_pos_right (by omega) (Nat.two_pow_pos _)
    rw [units_fsub_sizeF hL hsum hlo hhi, hsize, ← Nat.sub_mul, Nat.mod_eq_sub_mod hle,
      Nat.mod_eq_of_lt (by omega)]
  · next h => rw [hsum, Nat.mod_eq_of_lt (Nat.lt_of_not_le (mt hge.2 h))]

/-- The phase after `n` advances, and its sign. -/
theorem onGrid_iterate_advance (hL : L ≤ 23) (hx : OnGrid L a x) (hd : OnGrid L b d) (n : Nat) :
    OnGrid L ((a + n * b) % 2 ^ 23) ((fun x => advance L x d)^[n] x)
      ∧ (signBit x = false → signBit ((fun x => advance L x d)^[n] x) = false) := by
  induction n with
  | zero =>
    rw [Nat.zero_mul, Nat.add_zero, Nat.mod_eq_of_lt hx.lt]
    exact ⟨hx, id⟩
  | succ n ih =>
    obtain ⟨hgrid, hsign⟩ := ih
    rw [Function.iterate_succ_apply']
    refine ⟨?_, fun h => signBit_advance hL (hgrid.inRange hL) (hd.inRange hL) (hsign h)⟩
    rw [Nat.succ_mul, ← Nat.add_assoc, ← Nat.mod_add_mod]
    exact onGrid_advance hL hgrid hd

/-- Settles O42: the grid position counts modulo `2^23`, and the sign and the value of a phase are its
bits. -/
theorem exactPhaseIsPeriodic : Obligations.ExactPhaseIsPeriodic := by
  intro L ci d a b _ hL hci hd ha hb
  have hx := onGrid_of_val hL hci ha
  have hiter := onGrid_iterate_advance hL hx (onGrid_of_val hL hd hb)
  refine ⟨fun n => (val_mul_eq_iff hL).2 (hiter n).1.units_eq, fun hsign m hm => ?_⟩
  obtain ⟨hgrid, hsign'⟩ := hiter m
  have hreturn : (a + m * b) % 2 ^ 23 = a := by
    rw [Nat.add_mod, Nat.mod_eq_zero_of_dvd hm, Nat.add_zero, Nat.mod_mod, Nat.mod_eq_of_lt hx.lt]
  rw [hreturn] at hgrid
  exact eq_of_signBit_of_units (inRange_iff.1 (hgrid.inRange hL)).1 (inRange_iff.1 hci).1
    ((hsign' hsign).trans hsign.symm) (hgrid.units_eq.trans hx.units_eq.symm)

end Sys2Proof
end

section
/-! PROOFS. NEXT in contract (rules R105 to R109, R112): its answer and its new phase, from the table
words at the floor of the phase, and on what they depend. -/

namespace Sys2Proof.Machine

variable {c : Config} {s t s₁ s₂ t₁ t₂ : State} {o o₁ o₂ : Osc}

/-! ### The answer and the phase -/

/-- An in-contract NEXT that ends in a next state ends in the one of rule R105. -/
theorem eq_of_execNextWith {j : BitVec 4} (ho : osc? s j = some o)
    (hc : nextInContract c o = true) (h : execNextWith c j s = .next t) :
    t = respond (sample c s o)
      (setOsc j { o with continuousIndex := advance c.log2N o.continuousIndex o.delta }
        (getTable c o.kind s)) := by
  have hnext : execNextWith c j s = _ := (Completes.next ho hc).execWith_eq
  rw [hnext] at h
  exact (Host.Outcome.next.inj h).symm

/-- The answer is a function of the kind, the phase and the selected table's words. -/
theorem sample_congr (hphase : o₁.continuousIndex = o₂.continuousIndex)
    (htable : ∀ i < c.size, tableWord c s₁ o₁.kind i = tableWord c s₂ o₂.kind i) :
    sample c s₁ o₁ = sample c s₂ o₂ := by
  obtain ⟨h₁, h₂⟩ := readIndices_lt c (splitPhase c.log2N o₁.continuousIndex).1
  rw [sample, htable _ h₁, htable _ h₂, hphase]
  rfl

/-- The answer for a phase in range: the words at its floor and at the next index, around the table. -/
theorem sample_of_inRange (hL : c.log2N ≤ 23) (h : inRange c.log2N o.continuousIndex = true) :
    sample c s o = lerp c.lerpMode (fsub o.continuousIndex (ffloor o.continuousIndex))
      (tableWord c s o.kind ⌊val o.continuousIndex⌋.toNat)
      (tableWord c s o.kind ((⌊val o.continuousIndex⌋.toNat + 1) % c.size)) := by
  have hidx : (splitPhase c.log2N o.continuousIndex).1 = ⌊val o.continuousIndex⌋.toNat :=
    f2i_ffloor hL h
  rw [sample, hidx, (readIndices_of_lt (floor_val_lt h)).1, ← mask_eq_mod]
  rfl

/-- The advance on this hardware, compared by value. -/
theorem advance_hw {x d : F32} (hx : inRange 15 x = true) (hd : inRange 15 d = true) :
    advance Config.hw.log2N x d
      = if 32768 ≤ val (fadd x d) then fsub (fadd x d) 0x47000000#32 else fadd x d := by
  have hsize : sizeF 15 = 0x47000000#32 := by decide +kernel
  have hge : fge (fadd x d) (sizeF 15) = true ↔ 32768 ≤ val (fadd x d) := by
    rw [fge_sizeF_iff (by decide) (isFinite_fadd_of_inRange (by decide) hx hd)]
    norm_num
  rw [hw_log2N, advance, if_congr hge rfl rfl, hsize]

end Sys2Proof.Machine

namespace Sys2Proof

open Machine

theorem toNat_encode_next (j : BitVec 4) :
    (encode (.next j)).toNat = j.toNat * 2 ^ 36 + 0x0500000000 := by
  simp [encode, toNat_cmdWord]

/-- Settles O39: the next state of rule R105, with the floor as index and the comparison by value. -/
theorem nextAnswersTheInterpolatedSample : Obligations.NextAnswersTheInterpolatedSample := by
  refine ⟨fun j s o ho hdef hphase hdelta => ?_, toNat_encode_next⟩
  have hc : nextInContract Config.hw o = true := by
    rw [nextInContract, hw_log2N, hdef, hphase, hdelta]; rfl
  refine ⟨_, _, _, (Completes.next ho hc).exec_eq, rfl, rfl, ?_⟩
  rw [sample_of_inRange (c := Config.hw) (by decide) hphase, advance_hw hphase hdelta]
  exact ⟨by simp [lerp], by simp, getTable_demanded Config.hw o.kind s, by simp [isBuilt_getTable],
    by simp, by simp [sameRest]⟩

/-- Settles O40: the answer is `sample` and the new phase `advance`, both functions of what is equal. -/
theorem nextDependsOnItsInputsOnly : Obligations.NextDependsOnItsInputsOnly := by
  intro c s₁ s₂ t₁ t₂ j₁ j₂ o₁ o₂ ho₁ ho₂ hc₁ hc₂ _ hdelta hphase htable h₁ h₂
  obtain rfl := eq_of_execNextWith ho₁ hc₁ h₁
  obtain rfl := eq_of_execNextWith ho₂ hc₂ h₂
  refine ⟨sample c s₁ o₁, _, _, by simp, by simp [sample_congr hphase htable],
    (osc?_setOsc (by simpa [osc?] using ho₁) _ j₁).trans (if_pos rfl),
    (osc?_setOsc (by simpa [osc?] using ho₂) _ j₂).trans (if_pos rfl), ?_⟩
  rw [hphase, hdelta]

end Sys2Proof
end

section
/-! PROOFS. Rounding at its edges (rule R121): a tie goes to the even significand, and from half a unit
above the greatest finite datum up a real rounds to the infinity. -/

namespace Sys2Proof

/-! ### Ties -/

/-- A quotient halfway between two whole numbers rounds to the even one. -/
theorem roundHalfEven_even_of_half {n d q : Nat} (hd : 0 < d) (h : 2 * n = (2 * q + 1) * d) :
    roundHalfEven n d % 2 = 0 := by
  have hsplit : (2 * q + 1) * d = 2 * (q * d) + d := by ring
  have hstep : (q + 1) * d = q * d + d := by ring
  have hdiv : n / d = q := Nat.div_eq_of_lt_le (by omega) (by omega)
  have hmod : n % d + q * d = n := by rw [← hdiv, Nat.mod_add_div']
  rw [roundHalfEven, if_neg (by omega), if_neg (by omega), hdiv]
  omega

/-- Two whole numbers at the same distance from a quotient, one of them its rounding: the rounding is
even, since the two follow each other and the quotient lies halfway. -/
theorem roundHalfEven_even_of_tie {n d k : Nat} (hd : 0 < d) (hne : k ≠ roundHalfEven n d)
    (h : |(k * d : Int) - n| = |(roundHalfEven n d * d : Int) - n|) :
    roundHalfEven n d % 2 = 0 := by
  obtain ⟨hlo, hhi⟩ := roundHalfEven_near n hd
  have hsum : (k + roundHalfEven n d) * d = 2 * n := by
    rcases abs_eq_abs.1 h with heq | heq
    · have hmul : k * d = roundHalfEven n d * d := by zify; linarith
      exact absurd (Nat.eq_of_mul_eq_mul_right hd hmul) hne
    · zify; linarith
  have habove : k ≤ roundHalfEven n d + 1 := by
    refine Nat.le_of_add_le_add_right (Nat.le_of_mul_le_mul_right ?_ hd)
      (b := roundHalfEven n d)
    linarith
  have hbelow : roundHalfEven n d ≤ k + 1 := by
    refine Nat.le_of_add_le_add_right (Nat.le_of_mul_le_mul_right ?_ hd)
      (b := roundHalfEven n d)
    linarith
  rcases Nat.lt_or_gt_of_ne hne with hlt | hgt
  · exact roundHalfEven_even_of_half hd (q := k) (by rw [← hsum]; congr 1; omega)
  · exact roundHalfEven_even_of_half hd (q := roundHalfEven n d) (by rw [← hsum]; congr 1; omega)

/-- Every magnitude is a multiple of a given unit in the last place, or lies below that unit's binade. -/
theorem exists_mul_or_mag_lt (x : F32) (e : Nat) :
    (∃ k, mag x = k * 2 ^ e) ∨ 0 < e ∧ mag x < 2 ^ 23 * 2 ^ e := by
  obtain ⟨m, f, hmag, hm, -⟩ := exists_significand x
  rcases Nat.lt_or_ge f e with hf | hf
  · refine .inr ⟨by omega, ?_⟩
    have hpow : 2 ^ (f + 1) ≤ 2 ^ e := Nat.pow_le_pow_right two_pos hf
    have hmul := Nat.mul_lt_mul_of_pos_right hm (Nat.two_pow_pos f)
    rw [Nat.pow_succ] at hpow
    omega
  · exact .inl ⟨m * 2 ^ (f - e), by rw [hmag, Nat.mul_assoc, ← Nat.pow_add, Nat.sub_add_cancel hf]⟩

/-- Where another datum's magnitude is as near to a real as the one it rounds to, the significand is
even: a datum below the real's binade is farther than the binade's least magnitude. -/
theorem roundSig_even_of_tie (neg : Bool) {n d : Nat} (hd : 0 < d) (he : ulpShift (n / d) ≤ 253)
    {y : F32} (hne : mag y ≠ mag (pack neg (roundMag n d)))
    (h : |(mag y * d : Int) - n| = |(mag (pack neg (roundMag n d)) * d : Int) - n|) :
    roundSig n d % 2 = 0 := by
  rw [mag_roundMag neg hd he] at hne h
  have hpos : 0 < d * 2 ^ ulpShift (n / d) := by positivity
  have hround : ((roundSig n d * 2 ^ ulpShift (n / d) : Nat) * d : Int)
      = roundSig n d * (d * 2 ^ ulpShift (n / d) : Nat) := by push_cast; ring
  rw [hround] at h
  obtain ⟨k, hk⟩ | ⟨hshift, hlt⟩ := exists_mul_or_mag_lt y (ulpShift (n / d))
  · have hmul : (mag y * d : Int) = k * (d * 2 ^ ulpShift (n / d) : Nat) := by
      rw [hk]; push_cast; ring
    rw [hmul] at h
    exact roundHalfEven_even_of_tie hpos (fun hkr => hne (by rw [hk, hkr, roundSig])) h
  · have hlo : 2 ^ 23 * 2 ^ ulpShift (n / d) * d ≤ n :=
      (Nat.le_div_iff_mul_le hd).1 ((ulpShift_bounds (n / d)).1.resolve_left hshift.ne')
    have hyd := Nat.mul_lt_mul_of_pos_right hlt hd
    have hnear := roundHalfEven_nearest n hpos (2 ^ 23)
    rw [← roundSig, ← h] at hnear
    zify at hlo hyd
    rw [show ((2 ^ 23 : Nat) * (d * 2 ^ ulpShift (n / d) : Nat) : Int)
      = 2 ^ 23 * 2 ^ ulpShift (n / d) * d by push_cast; ring,
      abs_of_nonpos (by linarith), abs_of_nonpos (by linarith)] at hnear
    linarith

theorem signBit_pack_roundMag (neg : Bool) (n d : Nat) : signBit (pack neg (roundMag n d)) = neg :=
  signBit_pack neg ((roundMag_le n d).trans_lt (by decide))

/-- The fraction of a rounded real has the parity of its significand. -/
theorem fracField_roundMag (neg : Bool) {n d : Nat} (hd : 0 < d) (he : ulpShift (n / d) ≤ 253) :
    fracField (pack neg (roundMag n d)) % 2 = roundSig n d % 2 := by
  obtain ⟨-, hhi⟩ := roundSig_bounds n hd
  rw [roundMag_eq hd he, fracField_pack neg (by omega)]
  omega

/-- Two whole numbers whose multiples are equally far from a number other than 0 are not each other's
negatives. -/
theorem natAbs_ne_of_equidistant {u r d N : Int} (hd : d ≠ 0) (hN : N ≠ 0) (hne : u ≠ r)
    (h : |u * d - N| = |r * d - N|) : u.natAbs ≠ r.natAbs := by
  intro hm
  obtain rfl := (Int.natAbs_eq_natAbs_iff.1 hm).resolve_left hne
  rcases abs_eq_abs.1 h with heq | heq
  · have hr : r * d = 0 := by linarith
    rw [(mul_eq_zero.1 hr).resolve_right hd, neg_zero] at hne
    exact hne rfl
  · exact hN (by linarith)

/-- A magnitude is at most as far from a real's magnitude as the datum is from the real. -/
theorem abs_mag_mul_sub_le (y : F32) (N : Int) (d : Nat) :
    |(mag y * d : Int) - N.natAbs| ≤ |units y * d - N| := by
  have h := abs_abs_sub_abs_le (units y * d) N
  rwa [abs_mul, abs_units, Nat.abs_cast, Int.abs_eq_natAbs N] at h

/-- Rule R121 at a tie: the fraction is even. -/
theorem rn_even_of_tie {num : Int} {den : Nat} (hd : 0 < den)
    (he : ulpShift ((num * oneUnits).natAbs / den) ≤ 253) {y : F32}
    (h : |val y - num / den| = |val (rn num den) - num / den|)
    (hne : val y ≠ val (rn num den)) : fracField (rn num den) % 2 = 0 := by
  by_cases h0 : num = 0
  · subst h0
    simp only [rn_zero, val_zero, Int.cast_zero, zero_div, sub_zero, abs_zero, abs_eq_zero] at h hne
    exact absurd h hne
  have hdist : |units y * den - num * oneUnits| = |units (rn num den) * den - num * oneUnits| := by
    rw [abs_val_sub_div y num hd, abs_val_sub_div _ num hd, div_left_inj' (by positivity)] at h
    exact_mod_cast h
  have hmag : mag y ≠ mag (rn num den) := by
    rw [← natAbs_units, ← natAbs_units]
    exact natAbs_ne_of_equidistant (by exact_mod_cast hd.ne') (mul_ne_zero h0 (by decide))
      (fun hu => hne (by rw [val, val, hu])) hdist
  have hle := abs_mag_mul_sub_le y (num * oneUnits) den
  rw [hdist, rn_of_ne_zero h0, abs_units_roundUnits_sub] at hle
  rw [rn_of_ne_zero h0] at hmag
  rw [rn_of_ne_zero h0, roundUnits, fracField_roundMag _ hd he]
  exact roundSig_even_of_tie _ hd he hmag (hle.antisymm (mag_roundMag_nearest _ hd he y))

/-! ### Overflow -/

/-- Below half a unit above the greatest finite magnitude a real keeps a finite exponent. -/
theorem ulpShift_le_of_lt {n d : Nat} (hd : 0 < d)
    (h : 2 * n + d * 2 ^ 253 < 2 ^ 25 * (d * 2 ^ 253)) : ulpShift (n / d) ≤ 253 :=
  ulpShift_le <| (Nat.div_lt_iff_lt_mul hd).2 <| by rw [Nat.pow_add]; linarith

/-- Below half a unit above the greatest finite magnitude a real rounds to a finite datum. -/
theorem roundMag_lt_infinity {n d : Nat} (hd : 0 < d)
    (h : 2 * n + d * 2 ^ 253 < 2 ^ 25 * (d * 2 ^ 253)) : roundMag n d < 0x7F800000 := by
  have he := ulpShift_le_of_lt hd h
  obtain ⟨-, hhi⟩ := roundSig_bounds n hd
  rw [roundMag_eq hd he]
  rcases he.eq_or_lt with heq | hlt
  · obtain ⟨-, hnear⟩ := roundHalfEven_near n (d := d * 2 ^ ulpShift (n / d)) (by positivity)
    rw [← roundSig, heq] at hnear
    have hsig : roundSig n d < 2 ^ 24 :=
      Nat.lt_of_mul_lt_mul_right (a := d * 2 ^ 253) (by linarith)
    omega
  · omega

/-- From there up it rounds to the infinity: just there by the tie, since the greatest significand is
odd. -/
theorem roundMag_eq_infinity {n d : Nat} (hd : 0 < d)
    (h : 2 ^ 25 * (d * 2 ^ 253) ≤ 2 * n + d * 2 ^ 253) : roundMag n d = 0x7F800000 := by
  have hpos : 0 < d * 2 ^ ulpShift (n / d) := by positivity
  have hlo : 2 ^ 23 * 2 ^ 253 ≤ n / d := (Nat.le_div_iff_mul_le hd).2 (by linarith)
  have he : 253 ≤ ulpShift (n / d) := by
    by_contra hc
    have hhi := hlo.trans_lt (ulpShift_bounds (n / d)).2
    have hpow : 2 ^ ulpShift (n / d) ≤ 2 ^ 252 := Nat.pow_le_pow_right two_pos (by omega)
    linarith
  refine Nat.min_eq_right ?_
  rw [← roundSig]
  rcases he.eq_or_lt with heq | hgt
  · obtain ⟨hnear, -⟩ := roundHalfEven_near n hpos
    have heven := roundHalfEven_even_of_half (n := n) (q := roundSig n d) hpos
    rw [← roundSig, ← heq] at hnear heven
    have hsig : 2 ^ 24 ≤ roundSig n d := by
      by_contra hc
      have hnext := Nat.mul_le_mul_right (d * 2 ^ 253) (show roundSig n d + 1 ≤ 2 ^ 24 by omega)
      have hparity := heven (by linarith)
      have hskip := Nat.mul_le_mul_right (d * 2 ^ 253) (show roundSig n d + 2 ≤ 2 ^ 24 by omega)
      linarith
    omega
  · have hsig := (roundSig_bounds n hd).1.resolve_left (by omega)
    omega

theorem isFinite_rn {num : Int} {den : Nat} (hd : 0 < den)
    (h : 2 * (num * oneUnits).natAbs + den * 2 ^ 253 < 2 ^ 25 * (den * 2 ^ 253)) :
    isFinite (rn num den) = true := by
  by_cases h0 : num = 0
  · simp [h0]
  · rw [rn_of_ne_zero h0]
    exact isFinite_pack _ (roundMag_lt_infinity hd h)

/-- The overflow bound of rule R121, in units. -/
theorem abs_div_lt_iff (num : Int) {den : Nat} (hd : 0 < den) :
    |(num : ℚ) / den| < 2 ^ 128 - 2 ^ 103
      ↔ 2 * (num * oneUnits).natAbs + den * 2 ^ 253 < 2 ^ 25 * (den * 2 ^ 253) := by
  have hden : (0 : ℚ) < den := by exact_mod_cast hd
  rw [abs_div, abs_of_pos hden, div_lt_iff₀ hden, Int.natAbs_mul, Int.natAbs_natCast, oneUnits,
    ← Nat.cast_lt (α := ℚ)]
  push_cast [Nat.cast_natAbs]
  constructor <;> intro h <;> linarith

/-- Settles O27: no datum is nearer, a tie is halfway between two significands that follow each other,
and the infinity's pattern starts at the overflow bound. -/
theorem roundingIsToNearestTiesToEven : Obligations.RoundingIsToNearestTiesToEven := by
  refine fun num den hd => ⟨fun h0 => ?_, fun hlt => ?_, fun hge => ?_⟩
  · rw [h0, rn_zero]; decide
  · have hlt' := (abs_div_lt_iff num hd).1 hlt
    have he := ulpShift_le_of_lt hd hlt'
    exact ⟨isFinite_rn hd hlt', fun y _ => ⟨rn_nearest hd he y, rn_even_of_tie hd he⟩⟩
  · have hge' := Nat.le_of_not_lt (mt (abs_div_lt_iff num hd).2 hge.not_gt)
    have h0 : num ≠ 0 := by
      rintro rfl
      norm_num at hge
    have hsign : num * (oneUnits : Int) < 0 ↔ num < 0 := by
      rw [oneUnits]; omega
    rw [rn_of_ne_zero h0, roundUnits, roundMag_eq_infinity hd hge', decide_eq_decide.2 hsign]
    by_cases hneg : num < 0
    · rw [if_pos hneg, decide_eq_true hneg]; decide
    · rw [if_neg hneg, decide_eq_false hneg]; decide

end Sys2Proof
end

section
/-! PROOFS. The operations on finite operands (rules R122, R123): one rounding of the exact result, with
the listed signs of zeros. -/

namespace Sys2Proof

variable {x y z : F32}

/-! ### Fractions that are equal, and their signs -/

/-- A factor common to the two sides of any fraction does not change its rounding. -/
theorem roundMag_mul_mul (n d : Nat) {c : Nat} (hc : 0 < c) :
    roundMag (n * c) (d * c) = roundMag n d := by
  have hround (k : Nat) : roundHalfEven (n * c) (d * c * k) = roundHalfEven n (d * k) := by
    have hden : d * c * k = d * k * c := Nat.mul_right_comm d c k
    have hlt (a b : Nat) : a * c < b * c ↔ a < b := Nat.mul_lt_mul_right hc
    simp only [roundHalfEven, hden, Nat.mul_mod_mul_right, Nat.mul_div_mul_right _ _ hc,
      ← Nat.mul_assoc 2, hlt]
  rw [roundMag, roundMag, Nat.mul_div_mul_right _ _ hc, hround]

@[simp] theorem roundMag_zero (d : Nat) : roundMag 0 d = 0 := by
  simp [roundMag, ulpShift, roundHalfEven]

/-- `RN` of a fraction that counts units of `2^-149`. -/
theorem rn_mul_oneUnits {r : Int} (h : r ≠ 0) (d : Nat) : rn r (d * oneUnits) = roundUnits r d := by
  have hsign : r * (oneUnits : Int) < 0 ↔ r < 0 := by rw [oneUnits]; omega
  rw [rn_of_ne_zero h, roundUnits, roundUnits, Int.natAbs_mul, Int.natAbs_natCast,
    roundMag_mul_mul _ _ (by decide), decide_eq_decide.2 hsign]

/-- The rounding of a real given as a sign and a magnitude. -/
theorem roundUnits_signed (neg : Bool) {n : Nat} (h : n ≠ 0) (d : Nat) :
    roundUnits (if neg then -(n : Int) else n) d = pack neg (roundMag n d) := by
  cases neg with
  | false =>
    have hsign : ¬ (n : Int) < 0 := by omega
    rw [roundUnits, if_neg Bool.false_ne_true, Int.natAbs_natCast, decide_eq_false hsign]
  | true =>
    have hsign : -(n : Int) < 0 := by omega
    rw [roundUnits, if_pos rfl, Int.natAbs_neg, Int.natAbs_natCast, decide_eq_true hsign]

/-- The exact product of two data, by the signs of R122. -/
theorem units_mul_units (x y : F32) : units x * units y
    = if signBit x != signBit y then -((mag x * mag y : Nat) : Int) else (mag x * mag y : Nat) := by
  unfold units
  cases signBit x <;> cases signBit y <;> simp

/-! ### The operations on finite data -/

theorem fsub_of_isFinite (hx : isFinite x = true) (hy : isFinite y = true) :
    fsub x y = if units x - units y = 0 then zero (signBit x && !signBit y)
      else roundUnits (units x - units y) 1 := by
  rw [fsub_eq_fadd_fneg hx hy, fadd_of_isFinite hx (by rw [isFinite_fneg, hy]), units_fneg,
    signBit_fneg, ← sub_eq_add_neg]

theorem fmul_of_isFinite (hx : isFinite x = true) (hy : isFinite y = true) :
    fmul x y = pack (signBit x != signBit y) (roundMag (mag x * mag y) oneUnits) := by
  simp [fmul, isNaN_of_isFinite, isInf_of_isFinite, hx, hy]

theorem fdiv_of_isFinite (hx : isFinite x = true) (hy : isFinite y = true) (h : mag y ≠ 0) :
    fdiv x y = pack (signBit x != signBit y) (roundMag (mag x * oneUnits) (mag y)) := by
  simp [fdiv, isNaN_of_isFinite, isInf_of_isFinite, hx, hy, h]

theorem ffma_of_isFinite (hx : isFinite x = true) (hy : isFinite y = true) (hz : isFinite z = true) :
    ffma x y z = if units x * units y + units z * oneUnits = 0 then
        zero ((units x == 0 || units y == 0) && (signBit x != signBit y) && signBit z)
      else roundUnits (units x * units y + units z * oneUnits) oneUnits := by
  have hzero (w : F32) : (mag w == 0) = (units w == 0) := by
    rw [Bool.eq_iff_iff, beq_iff_eq, beq_iff_eq, units_eq_zero]
  simp [ffma, isNaN_of_isFinite, isInf_of_isFinite, hx, hy, hz, hzero]

/-! ### One rounding of the exact result -/

/-- The exact product rounded once (rule R122). -/
theorem fmul_eq_rn (hx : isFinite x = true) (hy : isFinite y = true) :
    fmul x y = if units x * units y = 0 then zero (signBit x != signBit y)
      else rn (units x * units y) (oneUnits * oneUnits) := by
  rw [fmul_of_isFinite hx hy]
  split
  · next h =>
    have hmag : mag x * mag y = 0 := by
      rw [← natAbs_units, ← natAbs_units, ← Int.natAbs_mul, h, Int.natAbs_zero]
    rw [hmag, roundMag_zero, zero]
  · next h =>
    rw [rn_mul_oneUnits h, units_mul_units, roundUnits_signed]
    rwa [← natAbs_units, ← natAbs_units, ← Int.natAbs_mul, Int.natAbs_ne_zero]

/-- The exact quotient rounded once (rule R122). -/
theorem fdiv_eq_rn (hx : isFinite x = true) (hy : isFinite y = true) (h : units y ≠ 0) :
    fdiv x y = if units x = 0 then zero (signBit x != signBit y)
      else rn (if signBit x != signBit y then -(mag x : Int) else mag x) (mag y) := by
  rw [fdiv_of_isFinite hx hy (mt units_eq_zero.2 h)]
  split
  · next h0 => rw [units_eq_zero.1 h0, Nat.zero_mul, roundMag_zero, zero]
  · next h0 =>
    have hmag : mag x ≠ 0 := mt units_eq_zero.2 h0
    have hnum : (if signBit x != signBit y then -(mag x : Int) else mag x) ≠ 0 := by
      split <;> omega
    rw [rn_of_ne_zero hnum, ← roundUnits_signed _ (mul_ne_zero hmag (by decide))]
    congr 1
    split <;> push_cast <;> ring

/-- Settles O28: each operation is one rounding of the exact result, its zeros signed as listed. -/
theorem finiteArithmeticRoundsTheExactResult : Obligations.FiniteArithmeticRoundsTheExactResult := by
  intro x y hx hy
  have hone (r : Int) (hr : r ≠ 0) : rn r (2 ^ 149) = roundUnits r 1 := by
    rw [← rn_mul_oneUnits hr, Nat.one_mul, oneUnits]
  refine ⟨?_, ?_, ?_, fdiv_eq_rn hx hy⟩
  · rw [fadd_of_isFinite hx hy]
    exact ite_congr rfl (fun _ => rfl) fun h => (hone _ h).symm
  · rw [fsub_of_isFinite hx hy]
    exact ite_congr rfl (fun _ => rfl) fun h => (hone _ h).symm
  · rw [fmul_eq_rn hx hy, show 298 = 149 + 149 from rfl, Nat.pow_add, oneUnits]

end Sys2Proof
end

section
/-! PROOFS. Special operands (rules R122, R123): NaN, the infinities, and division by a zero. -/

namespace Sys2Proof

variable {x y z : F32}

/-! ### Kinds of data (rule R120) -/

@[simp] theorem isNaN_toNaN (w : F32) : isNaN (toNaN w) = true := by
  have hexp (c : F32) (hc : c.extractLsb' 23 8 = BitVec.allOnes 8) : expField (w ||| c) = 255 := by
    rw [expField, BitVec.extractLsb'_or, hc, BitVec.or_allOnes]
    rfl
  unfold toNaN
  split
  · next h =>
    have hfrac : w.extractLsb' 0 23 = 0#23 := BitVec.eq_of_toNat_eq h
    have hone : fracField (w ||| 0x7F800001#32) = 1 := by
      rw [fracField, BitVec.extractLsb'_or, hfrac]
      decide
    simp [isNaN, hexp 0x7F800001#32 (by decide), hone]
  · next h =>
    have hsame : fracField (w ||| 0x7F800000#32) = fracField w := by
      rw [fracField, BitVec.extractLsb'_or, show (0x7F800000#32).extractLsb' 0 23 = 0#23 by decide,
        BitVec.or_zero, fracField]
    simp [isNaN, hexp 0x7F800000#32 (by decide), hsame, h]

@[simp] theorem isNaN_opNaN (op : FpOp) (x y z : F32) : isNaN (opNaN op x y z) = true :=
  isNaN_toNaN _

theorem isNaN_of_isInf (h : isInf x = true) : isNaN x = false := by
  simp_all [isInf, isNaN]

theorem isInf_fneg (x : F32) : isInf (fneg x) = isInf x := by
  simp only [isInf, expField_fneg, fracField_fneg]

/-- The magnitude field of an infinity stands for `2^128`. -/
theorem mag_of_isInf (h : isInf x = true) : mag x = 2 ^ 23 * 2 ^ 254 := by
  simp only [isInf, Bool.and_eq_true, beq_iff_eq] at h
  obtain ⟨hexp, hfrac⟩ := h
  rw [mag, if_neg (by omega), hexp, hfrac]
  rfl

theorem mag_ne_zero_of_isInf (h : isInf x = true) : mag x ≠ 0 := by
  rw [mag_of_isInf h]
  exact mul_ne_zero (by decide) (by positivity)

/-! ### NaN operands -/

theorem isNaN_ops_of_isNaN (h : (isNaN x || isNaN y) = true) :
    isNaN (fadd x y) = true ∧ isNaN (fsub x y) = true
      ∧ isNaN (fmul x y) = true ∧ isNaN (fdiv x y) = true := by
  simp [fadd, fsub, fmul, fdiv, h]

theorem isNaN_ffma_of_isNaN (h : (isNaN x || isNaN y || isNaN z) = true) :
    isNaN (ffma x y z) = true := by
  rw [ffma, if_pos h]
  exact isNaN_opNaN _ _ _ _

/-! ### Infinite operands -/

/-- The sum with an infinite first operand. -/
theorem addWith_of_isInf (nan : F32) (hx : isInf x = true) :
    addWith nan x y = if isInf y && signBit x != signBit y then nan else x := if_pos hx

/-- The sum of two infinities. -/
theorem fadd_of_isInf (hx : isInf x = true) (hy : isInf y = true) :
    fadd x y = if signBit x = signBit y then x else opNaN .add x y 0 := by
  simp [fadd, isNaN_of_isInf, hx, hy, addWith_of_isInf]

/-- The difference of two infinities. -/
theorem fsub_of_isInf (hx : isInf x = true) (hy : isInf y = true) :
    fsub x y = if signBit x = signBit y then opNaN .sub x y 0 else x := by
  simp [fsub, isNaN_of_isInf, hx, hy, addWith_of_isInf, isInf_fneg, signBit_fneg]

/-- A product with an infinite factor. -/
theorem fmul_of_isInf (h : (isInf x || isInf y) = true) (hx : isNaN x = false) (hy : isNaN y = false) :
    fmul x y = if mag x = 0 || mag y = 0 then opNaN .mul x y 0
      else infinity (signBit x != signBit y) := by
  rw [fmul, hx, hy, Bool.or_false, if_neg Bool.false_ne_true, if_pos h]

/-- A fused product with an infinite factor. -/
theorem ffma_of_isInf (h : (isInf x || isInf y) = true) (hx : isNaN x = false) (hy : isNaN y = false)
    (hz : isNaN z = false) :
    ffma x y z = if mag x = 0 || mag y = 0 then opNaN .fma x y z
      else if isInf z && signBit z != (signBit x != signBit y) then opNaN .fma x y z
      else infinity (signBit x != signBit y) := by
  rw [ffma, hx, hy, hz, Bool.or_false, Bool.or_false, if_neg Bool.false_ne_true, if_pos h]

/-- The product of an infinity and a zero has no value. -/
theorem isNaN_ffma_of_mag_eq_zero (h : (isInf x || isInf y) = true)
    (h0 : (mag x = 0 || mag y = 0) = true) : isNaN (ffma x y z) = true := by
  by_cases hnan : (isNaN x || isNaN y || isNaN z) = true
  · exact isNaN_ffma_of_isNaN hnan
  · simp only [Bool.not_eq_true, Bool.or_eq_false_iff] at hnan
    obtain ⟨⟨hx, hy⟩, hz⟩ := hnan
    rw [ffma_of_isInf h hx hy hz, if_pos h0]
    exact isNaN_opNaN _ _ _ _

/-- An infinite product takes the exclusive-or sign, unless the addend is the other infinity. -/
theorem ffma_of_isInf_of_ne_zero (h : (isInf x || isInf y) = true) (hx : isNaN x = false)
    (hy : isNaN y = false) (hz : isNaN z = false) (hx0 : mag x ≠ 0) (hy0 : mag y ≠ 0) :
    (isInf z = true ∧ signBit z ≠ (signBit x != signBit y) → isNaN (ffma x y z) = true)
      ∧ (¬ (isInf z = true ∧ signBit z ≠ (signBit x != signBit y)) →
          ffma x y z = infinity (signBit x != signBit y)) := by
  have hcond : (isInf z && signBit z != (signBit x != signBit y)) = true
      ↔ isInf z = true ∧ signBit z ≠ (signBit x != signBit y) := by
    rw [Bool.and_eq_true, bne_iff_ne]
  have hne : (mag x = 0 || mag y = 0) = false := by simp [hx0, hy0]
  rw [ffma_of_isInf h hx hy hz, hne, if_neg Bool.false_ne_true]
  refine ⟨fun hc => ?_, fun hc => if_neg (mt hcond.1 hc)⟩
  rw [if_pos (hcond.2 hc)]
  exact isNaN_opNaN _ _ _ _

/-! ### An infinity and a finite datum -/

theorem addWith_of_isInf_of_isFinite (nan : F32) (hx : isInf x = true) (hy : isFinite y = true) :
    addWith nan x y = x ∧ addWith nan y x = x := by
  simp [addWith, hx, isInf_of_isFinite hy]

theorem ops_of_isInf_of_isFinite (hx : isInf x = true) (hy : isFinite y = true) :
    fadd x y = x ∧ fadd y x = x ∧ fsub x y = x ∧ fsub y x = fneg x
      ∧ fdiv y x = zero (signBit x != signBit y)
      ∧ fdiv x y = infinity (signBit x != signBit y) := by
  have hny : isFinite (fneg y) = true := by rw [isFinite_fneg, hy]
  have hnx : isInf (fneg x) = true := by rw [isInf_fneg, hx]
  have hnan : (isNaN x || isNaN y) = false := by rw [isNaN_of_isInf hx, isNaN_of_isFinite hy]; rfl
  have hnan' : (isNaN y || isNaN x) = false := by rw [Bool.or_comm, hnan]
  simp [fadd, fsub, fdiv, hnan, hnan', addWith_of_isInf_of_isFinite _ hx hy,
    addWith_of_isInf_of_isFinite _ hx hny, addWith_of_isInf_of_isFinite _ hnx hy, hx,
    isInf_of_isFinite hy, bne_comm (a := signBit y)]

/-! ### Division by a zero -/

theorem fdiv_of_mag_eq_zero (hx : isFinite x = true) (h : mag y = 0) :
    fdiv x y = if mag x = 0 then opNaN .div x y 0 else infinity (signBit x != signBit y) := by
  have hy : isFinite y = true := isFinite_of_mag_le (by omega)
  simp [fdiv, isNaN_of_isFinite, isInf_of_isFinite, hx, hy, h]

/-! ### The clauses -/

/-- Settles O29: one clause for each kind of operands. -/
theorem specialOperandsFollowTheListedClauses : Obligations.SpecialOperandsFollowTheListedClauses := by
  refine ⟨fun x y h => isNaN_ops_of_isNaN (by simpa using h), fun x y hx hy => ⟨?_, ?_, ?_⟩,
    fun x y => ops_of_isInf_of_isFinite, fun x y hx hy => ⟨fun h0 => ⟨?_, ?_⟩, fun h0 => ?_⟩,
    fun x y hx h0 => ⟨fun hne => ?_, fun heq => ?_⟩⟩
  · intro hne
    rw [fadd_of_isInf hx hy, fsub_of_isInf hx hy, if_neg hne, if_neg hne]
    exact ⟨isNaN_opNaN _ _ _ _, rfl⟩
  · intro heq
    rw [fadd_of_isInf hx hy, fsub_of_isInf hx hy, if_pos heq, if_pos heq]
    exact ⟨isNaN_opNaN _ _ _ _, rfl⟩
  · simp [fdiv, isNaN_of_isInf, hx, hy]
  · simp [fmul_of_isInf (x := x) (y := y) (by simp [hx]) (isNaN_of_isInf hx) hy, units_eq_zero.1 h0]
  · simp [fmul_of_isInf (x := y) (y := x) (by simp [hx]) hy (isNaN_of_isInf hx), units_eq_zero.1 h0]
  · simp [fmul_of_isInf (x := x) (y := y) (by simp [hx]) (isNaN_of_isInf hx) hy,
      mag_ne_zero_of_isInf hx, mt units_eq_zero.2 h0]
  · rw [fdiv_of_mag_eq_zero hx (units_eq_zero.1 h0), if_neg (mt units_eq_zero.2 hne)]
  · rw [fdiv_of_mag_eq_zero hx (units_eq_zero.1 h0), if_pos (units_eq_zero.1 heq)]
    exact isNaN_opNaN _ _ _ _

/-- Settles O30: one rounding on finite operands, and a clause for each kind of the others. -/
theorem fusedMultiplyAddRoundsOnce : Obligations.FusedMultiplyAddRoundsOnce := by
  refine ⟨fun x y z hx hy hz => ?_, fun x y z h => isNaN_ffma_of_isNaN (by simpa [or_assoc] using h),
    fun x y z hx h0 => ?_, fun x y z hx hy h0 hz => ?_, fun x y z hx hy hz => ?_⟩
  · rw [ffma_of_isFinite hx hy hz, show 298 = 149 + 149 from rfl, Nat.pow_add, ← oneUnits]
    exact ite_congr rfl (fun _ => rfl) fun h => (rn_mul_oneUnits h _).symm
  · have hmag := units_eq_zero.1 h0
    exact ⟨isNaN_ffma_of_mag_eq_zero (by simp [hx]) (by simp [hmag]),
      isNaN_ffma_of_mag_eq_zero (by simp [hx]) (by simp [hmag])⟩
  · have hx0 := mag_ne_zero_of_isInf hx
    have hy0 : mag y ≠ 0 := mt units_eq_zero.2 h0
    obtain ⟨hnan, hinf⟩ := ffma_of_isInf_of_ne_zero (x := x) (y := y) (z := z) (by simp [hx])
      (isNaN_of_isInf hx) hy hz hx0 hy0
    obtain ⟨hnan', hinf'⟩ := ffma_of_isInf_of_ne_zero (x := y) (y := x) (z := z) (by simp [hx])
      hy (isNaN_of_isInf hx) hz hy0 hx0
    rw [bne_comm] at hnan' hinf'
    exact ⟨fun h => ⟨hnan h, hnan' h⟩, fun h => ⟨hinf h, hinf' h⟩⟩
  · simp [ffma, isNaN_of_isFinite, isInf_of_isFinite, isNaN_of_isInf, hx, hy, hz]

end Sys2Proof
end

section
/-! PROOFS. Values and units (rule R120), the exact floor and conversions (rule R124), and the exact
fraction (rule R128). -/

namespace Sys2Proof

variable {x : F32}

/-! ### Values in units (rule R120) -/

theorem val_eq_div (x : F32) : val x = units x / (oneUnits : Nat) := by
  rw [val, oneUnits, Nat.cast_pow, Nat.cast_ofNat]

theorem oneUnits_pos : (0 : ℚ) < (oneUnits : Nat) := by
  rw [oneUnits]; positivity

theorem intCast_le_val_iff (k : Int) : (k : ℚ) ≤ val x ↔ k * oneUnits ≤ units x := by
  rw [val_eq_div, le_div_iff₀ oneUnits_pos]
  exact_mod_cast Iff.rfl

theorem val_lt_intCast_iff (k : Int) : val x < k ↔ units x < k * oneUnits := by
  rw [← not_le, intCast_le_val_iff, not_le]

theorem val_nonneg_iff : 0 ≤ val x ↔ 0 ≤ units x := by
  simpa using intCast_le_val_iff (x := x) 0

theorem val_of_units_mul {q : Int} (h : units x = q * oneUnits) : val x = q := by
  rw [val_eq_div, h, Int.cast_mul, Int.cast_natCast, mul_div_cancel_right₀ _ oneUnits_pos.ne']

theorem floor_val (x : F32) : ⌊val x⌋ = units x / oneUnits := by
  rw [val_eq_div, Rat.floor_intCast_div_natCast]

/-! ### The floor (rule R124) -/

/-- A datum is a whole number, or its magnitude is below `2^23`. -/
theorem dvd_units_or_mag_lt (x : F32) :
    (oneUnits : Int) ∣ units x ∨ mag x < 2 ^ 23 * oneUnits := by
  rw [Int.natCast_dvd, natAbs_units]
  exact (exists_mul_or_mag_lt x 149).imp (fun ⟨k, hk⟩ => ⟨k, by rw [hk, oneUnits, Nat.mul_comm]⟩)
    And.right

theorem natAbs_floor_lt (h : mag x < 2 ^ 23 * oneUnits) :
    (units x / oneUnits).natAbs < 2 ^ 24 := by
  rw [← natAbs_units] at h
  unfold oneUnits at h ⊢
  omega

/-- The floor of any finite datum is exact: a whole number is its own floor, and the floor of any other
has few enough bits. -/
theorem ffloor_exact (hx : isFinite x = true) :
    isFinite (ffloor x) = true ∧ units (ffloor x) = units x / oneUnits * oneUnits := by
  rw [ffloor, if_pos hx]
  split
  · next h0 => rw [h0, Int.zero_mul]; exact ⟨isFinite_zero _, units_zero _⟩
  · next h0 =>
    rcases dvd_units_or_mag_lt x with hdvd | hlt
    · have hne : units x ≠ 0 := fun h => h0 (by rw [h, Int.zero_ediv])
      have hself : roundUnits (units x) 1 = x := by
        simpa using roundUnits_units_mul one_pos hx hne
      rw [Int.ediv_mul_cancel hdvd, hself]
      exact ⟨hx, rfl⟩
    · have hq := natAbs_floor_lt hlt
      have hunits := units_roundUnits_of_significand hq (show 149 ≤ 253 by decide)
      rw [oneUnits, Nat.cast_pow, Nat.cast_ofNat] at hq hunits ⊢
      refine ⟨isFinite_of_mag_lt (k := 173) (by decide) ?_, hunits⟩
      rw [← natAbs_units, hunits, Int.natAbs_mul]
      exact Nat.mul_lt_mul_of_pos_right hq (by decide)

theorem val_ffloor (hx : isFinite x = true) : val (ffloor x) = (⌊val x⌋ : Int) := by
  rw [val_of_units_mul (ffloor_exact hx).2, floor_val]

theorem inRange_iff_val {L : Nat} :
    inRange L x = true ↔ isFinite x = true ∧ 0 ≤ val x ∧ val x < 2 ^ L := by
  have hlt := val_lt_intCast_iff (x := x) (2 ^ L)
  rw [Int.cast_pow, Int.cast_ofNat] at hlt
  rw [hlt, val_nonneg_iff, inRange, Bool.and_eq_true, Bool.and_eq_true, decide_eq_true_eq,
    decide_eq_true_eq, and_assoc]
  push_cast
  rfl

/-- The floor of a phase in range is in range, and at most `N - 1`. -/
theorem val_ffloor_of_inRange {L : Nat} (h : inRange L x = true) :
    0 ≤ val (ffloor x) ∧ val (ffloor x) ≤ 2 ^ L - 1 := by
  obtain ⟨hfin, h0, hlt⟩ := inRange_iff_val.1 h
  have hfloor : ⌊val x⌋ < 2 ^ L := Int.floor_lt.2 (by exact_mod_cast hlt)
  rw [val_ffloor hfin]
  exact ⟨by exact_mod_cast Int.floor_nonneg.2 h0, by exact_mod_cast Int.le_sub_one_of_lt hfloor⟩

/-! ### Whole numbers (rule R124) -/

theorem mag_i2f {n : Nat} (h : n ≤ 2 ^ 24) : mag (i2f n) = n * oneUnits := by
  rcases h.eq_or_lt with rfl | hlt
  · decide +kernel
  · exact mag_roundMag_of_significand false hlt (by decide)

theorem i2f_exact {n : Nat} (h : n ≤ 2 ^ 24) : isFinite (i2f n) = true ∧ val (i2f n) = n := by
  have hmag := mag_i2f h
  have hsign : signBit (i2f n) = false := signBit_pack_roundMag _ _ _
  have hunits : units (i2f n) = (n : Int) * oneUnits := by
    rw [units, hsign, hmag]; exact Nat.cast_mul _ _
  refine ⟨isFinite_of_mag_lt (k := 174) (by decide) ?_, by
    rw [val_of_units_mul hunits, Int.cast_natCast]⟩
  rw [hmag]
  exact (Nat.mul_le_mul_right _ h).trans_lt (by decide)

/-- Settles O31: the floor is exact, and so are the whole numbers of at most 24 bits. -/
theorem conversionsAreExact : Obligations.ConversionsAreExact := by
  refine ⟨fun x hx => ⟨(ffloor_exact hx).1, val_ffloor hx⟩, by decide +kernel, by decide +kernel,
    fun L x _ hL hx => ?_, fun n => i2f_exact, by decide +kernel⟩
  obtain ⟨h0, hle⟩ := val_ffloor_of_inRange hx
  exact ⟨h0, hle, f2i_ffloor hL hx⟩

/-! ### The fraction (rule R128) -/

/-- The part of a magnitude below one has no more significant bits than the magnitude. -/
theorem exists_significand_mod (x : F32) :
    ∃ m e, mag x % oneUnits = m * 2 ^ e ∧ m < 2 ^ 24 ∧ e ≤ 253 := by
  obtain ⟨m, e, hmag, hm, -⟩ := exists_significand x
  rw [hmag, oneUnits]
  rcases Nat.lt_or_ge e 149 with he | he
  · refine ⟨m % 2 ^ (149 - e), e, ?_, (Nat.mod_le _ _).trans_lt hm, by omega⟩
    rw [← Nat.mul_mod_mul_right, ← Nat.pow_add, Nat.sub_add_cancel he.le]
  · exact ⟨0, 0, Nat.mod_eq_zero_of_dvd ((pow_dvd_pow 2 he).mul_left m), by decide, by decide⟩

/-- Rule R128 in units: the fraction is the remainder by one. -/
theorem units_fsub_ffloor (hx : isFinite x = true) (h0 : 0 ≤ units x) :
    units (fsub x (ffloor x)) = (mag x % oneUnits : Nat) := by
  obtain ⟨hfin, hunits⟩ := ffloor_exact hx
  have hmag : units x = mag x := by rw [← abs_units, abs_of_nonneg h0]
  have hdiff : units x + units (fneg (ffloor x)) = (mag x % oneUnits : Nat) := by
    rw [units_fneg, hunits, hmag, Int.natCast_emod, Int.emod_def, Int.mul_comm, sub_eq_add_neg]
  obtain ⟨m, e, hsig, hm, he⟩ := exists_significand_mod x
  rw [fsub_eq_fadd_fneg hx hfin, units_fadd hx (by rw [isFinite_fneg, hfin]) hdiff, hsig,
    mag_roundMag_of_significand false hm he]

/-- Settles O34: the fraction is the remainder by one, in units. -/
theorem fractionIsExact : Obligations.FractionIsExact := by
  intro x hx h0
  have hpos := val_nonneg_iff.1 h0
  have hfrac := units_fsub_ffloor hx hpos
  have hlt : mag x % oneUnits < oneUnits := Nat.mod_lt _ (by decide)
  have hval : val (fsub x (ffloor x)) = val x - val (ffloor x) := by
    rw [val_eq_div, val_eq_div, val_eq_div (ffloor x), ← sub_div, hfrac, (ffloor_exact hx).2,
      ← Int.cast_sub, ← natAbs_units, Int.natCast_emod, Int.natAbs_of_nonneg hpos, Int.emod_def,
      Int.mul_comm]
  refine ⟨isFinite_of_mag_le (by rw [mag_of_units hfrac]; exact hlt.le), hval, ?_, ?_⟩
  · rw [val_nonneg_iff, hfrac]
    exact Int.natCast_nonneg _
  · have h1 := val_lt_intCast_iff (x := fsub x (ffloor x)) 1
    rw [Int.cast_one, Int.one_mul, hfrac] at h1
    exact h1.2 (by exact_mod_cast hlt)

end Sys2Proof
end

section
/-! PROOFS. Comparisons and predicates (rules R125, R126): by the bits, by the value, and with NaN and the
infinities. -/

namespace Sys2Proof

variable {x y : F32}

/-! ### Comparisons (rule R125) -/

theorem compare_of_not_isNaN (hx : isNaN x = false) (hy : isNaN y = false) :
    (fge x y = true ↔ units y ≤ units x) ∧ (fgt x y = true ↔ units y < units x)
      ∧ (flt x y = true ↔ units x < units y) := by
  simp [fge, fgt, flt, hx, hy]

theorem compare_of_isNaN (h : isNaN x = true ∨ isNaN y = true) :
    fge x y = false ∧ fgt x y = false ∧ flt x y = false := by
  rcases h with h | h <;> simp [fge, fgt, flt, h]

theorem compare_of_units_lt (hx : isNaN x = false) (hy : isNaN y = false) (h : units x < units y) :
    (fge x y = false ∧ fgt x y = false ∧ flt x y = true)
      ∧ (fge y x = true ∧ fgt y x = true ∧ flt y x = false) := by
  simp [fge, fgt, flt, hx, hy, h, h.le, h.not_gt]

theorem compare_self_of_not_isNaN (hx : isNaN x = false) :
    fge x x = true ∧ fgt x x = false ∧ flt x x = false := by
  simp [fge, fgt, flt, hx]

theorem val_lt_val_iff : val x < val y ↔ units x < units y := by
  rw [← not_le, val_le_val_iff, not_le]

/-- The finite data are those of magnitude below `2^128`. -/
theorem isFinite_iff_mag_lt : isFinite x = true ↔ mag x < 2 ^ 24 * 2 ^ 253 := by
  have hfrac : fracField x < 2 ^ 23 := (x.extractLsb' 0 23).isLt
  have hexp : expField x < 2 ^ 8 := (x.extractLsb' 23 8).isLt
  rw [isFinite, bne_iff_ne]
  constructor
  · intro hne
    unfold mag
    split
    · omega
    · exact Nat.mul_lt_mul_of_lt_of_le (by omega) (Nat.pow_le_pow_right two_pos (by omega))
        (Nat.two_pow_pos _)
  · intro hlt heq
    rw [mag, if_neg (by omega), heq] at hlt
    have hbig := Nat.mul_le_mul_right (2 ^ 254) (show 2 ^ 23 ≤ 2 ^ 23 + fracField x by omega)
    omega

/-- The infinities stand at the ends. -/
theorem units_mem_infinities (hx : isFinite x = true) :
    units 0xFF800000#32 < units x ∧ units x < units 0x7F800000#32 := by
  have hlo : units 0xFF800000#32 = -(2 ^ 24 * 2 ^ 253 : Nat) := by decide +kernel
  have hhi : units 0x7F800000#32 = (2 ^ 24 * 2 ^ 253 : Nat) := by decide +kernel
  rw [hlo, hhi, ← abs_lt, abs_units, Nat.cast_lt]
  exact isFinite_iff_mag_lt.1 hx

/-- Settles O32: by the units, among which those of the infinities are the ends. -/
theorem comparisonsFollowTheValues : Obligations.ComparisonsFollowTheValues := by
  refine ⟨fun x y hx hy => ?_, fun x y => compare_of_isNaN, fun y hy => ?_,
    fun x hx => compare_self_of_not_isNaN (isNaN_of_isInf hx), by decide +kernel⟩
  · rw [val_le_val_iff, val_lt_val_iff, val_lt_val_iff]
    exact compare_of_not_isNaN (isNaN_of_isFinite hx) (isNaN_of_isFinite hy)
  · obtain ⟨hlo, hhi⟩ := units_mem_infinities hy
    obtain ⟨hbelow, habove⟩ := compare_of_units_lt (isNaN_of_isFinite hy) (by decide) hhi
    obtain ⟨hbelow', habove'⟩ := compare_of_units_lt (by decide) (isNaN_of_isFinite hy) hlo
    exact ⟨habove, hbelow, hbelow', habove'⟩

/-! ### Predicates (rule R126) -/

theorem mag_eq_zero_iff : mag x = 0 ↔ expField x = 0 ∧ fracField x = 0 := by
  unfold mag
  split
  · next h => simp [h]
  · next h => simp [h]

theorem units_pos_iff : 0 < units x ↔ signBit x = false ∧ mag x ≠ 0 := by
  unfold units
  cases signBit x <;> simp [Nat.pos_iff_ne_zero]

theorem val_pos_iff : 0 < val x ↔ 0 < units x := by
  rw [← val_zero false, val_lt_val_iff, units_zero]

theorem isPos_iff : isPos x = true ↔ isFinite x = true ∧ 0 < units x := by
  rw [isPos, Bool.and_eq_true, decide_eq_true_eq]

/-- The quotient of two positive data (rule R122). -/
theorem fdiv_of_isPos (hx : isPos x = true) (hy : isPos y = true) :
    fdiv x y = rn (units x) (mag y) := by
  obtain ⟨hfx, hux⟩ := isPos_iff.1 hx
  obtain ⟨hfy, huy⟩ := isPos_iff.1 hy
  obtain ⟨hsx, -⟩ := units_pos_iff.1 hux
  obtain ⟨hsy, -⟩ := units_pos_iff.1 huy
  rw [fdiv_eq_rn hfx hfy huy.ne', if_neg hux.ne', hsx, hsy, ← abs_units x, abs_of_pos hux]
  rfl

/-- Settles O33: a positive datum has sign 0 and a magnitude, and the range is a range of values. -/
theorem posAndInRangeAreTheListedData : Obligations.PosAndInRangeAreTheListedData := by
  refine ⟨fun x => ?_, fun x => by rw [isPos_iff, val_pos_iff], fun L x => inRange_iff_val,
    by decide +kernel, by decide +kernel, by decide +kernel, by decide +kernel⟩
  have hfin : isFinite x = true ↔ expField x ≠ 255 := by simp [isFinite]
  rw [isPos_iff, units_pos_iff, hfin, ← mag_eq_zero_iff, signBit, and_left_comm]

end Sys2Proof
end

section
/-! PROOFS. The exact wrap subtraction (rule R129), the exact scaling by the table size (rules R90,
R130), and the advance by value (rule R131). -/

namespace Sys2Proof

variable {L : Nat} {x y f r t : F32}

/-! ### The wrap subtraction (rule R129) -/

theorem two_pow_mul_oneUnits (L : Nat) : (2 ^ L * oneUnits : Int) = (2 ^ (L + 149) : Nat) := by
  rw [oneUnits, Nat.pow_add]
  push_cast
  rfl

theorem two_pow_le_val_iff : 2 ^ L ≤ val x ↔ ((2 ^ (L + 149) : Nat) : Int) ≤ units x := by
  rw [← two_pow_mul_oneUnits, ← intCast_le_val_iff, Int.cast_pow, Int.cast_ofNat]

theorem val_lt_two_pow_iff : val x < 2 ^ L ↔ units x < (2 ^ (L + 149) : Nat) := by
  rw [← not_le, two_pow_le_val_iff, not_le]

/-- Settles O35: the difference keeps the unit in the last place of the minuend. -/
theorem wrapSubtractionIsExact : Obligations.WrapSubtractionIsExact := by
  intro L t _ hL ht hlo hhi
  rw [← pow_succ', val_lt_two_pow_iff, Nat.add_right_comm] at hhi
  rw [two_pow_le_val_iff] at hlo
  lift units t to Nat using (Int.natCast_nonneg _).trans hlo with n hn
  rw [Nat.cast_le] at hlo
  rw [Nat.cast_lt] at hhi
  have hdiff := units_fsub_sizeF hL hn.symm hlo hhi
  have hdouble : 2 ^ (L + 149 + 1) = 2 * 2 ^ (L + 149) := by ring
  have hrange := inRange_of_units hL hdiff (by omega)
  obtain ⟨hfin, h0, hlt⟩ := inRange_iff_val.1 hrange
  refine ⟨hfin, ?_, h0, hlt⟩
  rw [← val_sizeF hL, val_eq_div, val_eq_div, val_eq_div (sizeF L), ← sub_div, hdiff, ← hn,
    (sizeF_exact hL).2, Nat.cast_sub hlo, Int.cast_sub]

/-! ### Scaling by the table size (rules R90, R130) -/

theorem mag_sizeF (hL : L ≤ 23) : mag (sizeF L) = 2 ^ L * oneUnits := by
  rw [mag_of_units (sizeF_exact hL).2, Nat.pow_add, oneUnits]

theorem signBit_sizeF (L : Nat) : signBit (sizeF L) = false := signBit_pack_roundMag _ _ _

/-- The product with the table size rounds a magnitude with a greater exponent. -/
theorem fmul_sizeF (hL : L ≤ 23) (hf : isFinite f = true) :
    fmul f (sizeF L) = pack (signBit f) (roundMag (mag f * 2 ^ L) 1) := by
  rw [fmul_of_isFinite hf (sizeF_exact hL).1, mag_sizeF hL, signBit_sizeF, Bool.bne_false,
    ← Nat.mul_assoc, roundMag_mul_right _ (by decide)]

/-- The bound of rule R130, in units. -/
theorem abs_val_mul_lt_iff :
    |val f| * 2 ^ L < 2 ^ 128 ↔ mag f * 2 ^ L < 2 ^ 24 * 2 ^ 253 := by
  rw [val_eq_div, abs_div, abs_of_pos oneUnits_pos, div_mul_eq_mul_div, div_lt_iff₀ oneUnits_pos,
    ← Int.cast_abs, abs_units, ← Nat.cast_lt (α := ℚ), oneUnits]
  push_cast
  norm_num

/-- Rule R130 in units: below the overflow bound the product is exact. -/
theorem fmul_sizeF_exact (hL : L ≤ 23) (hf : isFinite f = true)
    (hlt : mag f * 2 ^ L < 2 ^ 24 * 2 ^ 253) :
    isFinite (fmul f (sizeF L)) = true ∧ units (fmul f (sizeF L)) = units f * 2 ^ L := by
  obtain ⟨m, e, hmag, hm, hnorm⟩ := exists_significand f
  have hscaled : mag f * 2 ^ L = m * 2 ^ (e + L) := by rw [hmag, Nat.mul_assoc, ← Nat.pow_add]
  have he : e + L ≤ 253 := by
    rcases hnorm with rfl | hm'
    · omega
    · by_contra hc
      have hpow : 2 ^ 254 ≤ 2 ^ (e + L) := Nat.pow_le_pow_right two_pos (by omega)
      have := Nat.mul_le_mul hm' hpow
      omega
  have hprod : mag (fmul f (sizeF L)) = mag f * 2 ^ L := by
    rw [fmul_sizeF hL hf, hscaled, mag_roundMag_of_significand _ hm he]
  have hsign : signBit (fmul f (sizeF L)) = signBit f := by
    rw [fmul_sizeF hL hf, signBit_pack_roundMag]
  refine ⟨isFinite_iff_mag_lt.2 (by rwa [hprod]), ?_⟩
  rw [units, units, hsign, hprod]
  split <;> push_cast <;> ring

/-- From the overflow bound up the product is an infinity. -/
theorem isInf_fmul_sizeF (hL : L ≤ 23) (hf : isFinite f = true)
    (hge : 2 ^ 24 * 2 ^ 253 ≤ mag f * 2 ^ L) : isInf (fmul f (sizeF L)) = true := by
  rw [fmul_sizeF hL hf, roundMag_eq_infinity one_pos (by omega)]
  cases signBit f <;> decide

/-- Rule R90: of two positive data the increment is one rounding, that of the quotient. -/
theorem deltaOf_eq_rn (hL : L ≤ 23) (hlt : mag f * 2 ^ L < 2 ^ 24 * 2 ^ 253) (hf : isPos f = true)
    (hr : isPos r = true) : deltaOf L f r = rn (units f * 2 ^ L) (mag r) := by
  obtain ⟨hfin, hpos⟩ := isPos_iff.1 hf
  obtain ⟨hfinite, hunits⟩ := fmul_sizeF_exact hL hfin hlt
  have hprod : isPos (fmul f (sizeF L)) = true :=
    isPos_iff.2 ⟨hfinite, by rw [hunits]; positivity⟩
  rw [deltaOf, fdiv_of_isPos hprod hr, hunits]

/-- Settles O36: the product with a power of two only raises the exponent. -/
theorem scalingByTheTableSizeIsExact : Obligations.ScalingByTheTableSizeIsExact := by
  refine fun L f _ hL hf => ⟨fun hlt => ?_, fun hge => ?_⟩
  · have hlt' := abs_val_mul_lt_iff.1 hlt
    obtain ⟨hfin, hunits⟩ := fmul_sizeF_exact hL hf hlt'
    refine ⟨hfin, ?_, fun r => deltaOf_eq_rn hL hlt'⟩
    rw [val_eq_div, hunits, val_eq_div, div_mul_eq_mul_div]
    push_cast
    rfl
  · exact isInf_fmul_sizeF hL hf (Nat.le_of_not_lt (mt abs_val_mul_lt_iff.2 hge.not_gt))

/-! ### The advance (rule R131) -/

/-- Settles O37: the sum of two data in range is below `2N`, and one wrap brings it back. -/
theorem advanceKeepsThePhaseInRange : Obligations.AdvanceKeepsThePhaseInRange := by
  refine ⟨fun L ci d _ hL hci hd => ?_, by decide +kernel⟩
  obtain ⟨n, hn, hsum⟩ := units_fadd_lt hL hci hd
  refine ⟨isFinite_fadd_of_inRange hL hci hd, ?_, ?_, inRange_advance hL hci hd⟩
  · rw [val_nonneg_iff, hsum]
    exact Int.natCast_nonneg n
  · rw [← pow_succ', val_lt_two_pow_iff, Nat.add_right_comm, hsum]
    exact_mod_cast hn

end Sys2Proof
end

section
/-! PROOFS. The contract (rules R141, R143): which commands are out of it, their next state, and which
command begins or ends an undefined condition. -/

namespace Sys2Proof.Machine

variable {c : Config} {i : Instr} {j : BitVec 4} {s t : State} {o u : Osc}

/-! ### The preconditions (rule R141) -/

theorem setterInContract_eq_false_iff {f : F32} :
    setterInContract o f = false ↔ o.undef = true ∨ isPos f = false := by
  simp only [setterInContract, Bool.and_eq_false_iff, Bool.not_eq_false']

theorem nextInContract_eq_false_iff :
    nextInContract c o = false ↔
      o.undef = true ∨ inRange c.log2N o.delta = false
        ∨ inRange c.log2N o.continuousIndex = false := by
  simp only [nextInContract, Bool.and_eq_false_iff, Bool.not_eq_false', or_assoc,
    or_comm (a := inRange c.log2N o.continuousIndex = false)]

/-- The out-of-contract commands to oscillator `j`, with the preconditions that each fails. -/
theorem outOfContract_iff :
    addressed i = some j ∧ outOfContract c o i = true ↔
      (∃ f, i = .setsr j f ∧ (o.undef = true ∨ isPos f = false))
        ∨ (∃ f, i = .setfq j f ∧ (o.undef = true ∨ isPos f = false))
        ∨ (i = .next j ∧ (o.undef = true ∨ inRange c.log2N o.delta = false
            ∨ inRange c.log2N o.continuousIndex = false)) := by
  cases i with
  | setsr | setfq => simp [addressed, outOfContract, setterInContract_eq_false_iff, and_assoc]
  | next => simp [addressed, outOfContract, nextInContract_eq_false_iff]
  | warmup | setwt | tabrd | rdreg | oscrst => simp [outOfContract]

/-! ### The next state out of contract (rule R143) -/

theorem osc?_undefine (ho : osc? s j = some o) (j' : BitVec 4) :
    osc? (undefine j o s) j' = if j' = j then some (undefinedOsc s o) else osc? s j' :=
  osc?_setOsc ho _ j'

/-- NEXT leaves the oscillators as `undefine` does after the construction. -/
theorem osc?_nextUndefined (ho : osc? s j = some o) (j' : BitVec 4) :
    osc? (nextUndefined c j o s) j'
      = if j' = j then some (undefinedOsc (getTable c o.kind s) o) else osc? s j' := by
  have hosc (n) : osc? (getTable c o.kind s) n = osc? s n := by rw [osc?, getTable_oscs, osc?]
  rw [← hosc j']
  exact osc?_undefine ((hosc j).trans ho) j'

/-- An out-of-contract command completes: a setter only takes the oscillator's meaning away, and NEXT
also demands the selected table and answers. -/
theorem completes_of_outOfContract (ho : osc? s j = some o) (hj : addressed i = some j)
    (hout : outOfContract c o i = true) :
    i ≠ .next j ∧ Completes c s i (undefine j o s)
      ∨ i = .next j ∧ Completes c s i (nextUndefined c j o s) := by
  rcases outOfContract_iff.1 ⟨hj, hout⟩ with ⟨f, rfl, hf⟩ | ⟨f, rfl, hf⟩ | ⟨rfl, hc⟩
  · exact .inl ⟨nofun, .setsrOut ho (setterInContract_eq_false_iff.2 hf)⟩
  · exact .inl ⟨nofun, .setfqOut ho (setterInContract_eq_false_iff.2 hf)⟩
  · exact .inr ⟨rfl, .nextOut ho (nextInContract_eq_false_iff.2 hc)⟩

/-! ### The mark of an undefined oscillator (rules R94, R143) -/

theorem Completes.oscs_length (h : Completes c s i t) : t.oscs.length = s.oscs.length := by
  rcases h.oscs with hoscs | ⟨j, o, u, -, -, hoscs, -⟩
  · rw [hoscs]
  · rw [hoscs, List.length_set]

theorem Completes.exists_osc? (h : Completes c s i t) (ho : osc? s j = some o) :
    ∃ u, osc? t j = some u :=
  ⟨_, List.getElem?_eq_getElem (h.oscs_length ▸ osc?_lt ho)⟩

/-- What a command does to an oscillator's mark: OSCRST clears it, an out-of-contract command sets it,
and any other keeps it. -/
theorem Completes.undef_cases (h : Completes c s i t) (ho : osc? s j = some o)
    (hu : osc? t j = some u) :
    u.undef = o.undef ∨ (i = .oscrst j ∧ u.undef = false)
      ∨ (addressed i = some j ∧ outOfContract c o i = true ∧ u.undef = true) := by
  rcases h.osc?_cases ho hu with rfl | ⟨hj, hw⟩
  · exact .inl rfl
  · cases hw with
    | kind | rate | freq | phase => exact .inl rfl
    | created => exact .inr (.inl ⟨congrArg Instr.oscrst (Option.some.inj hj), rfl⟩)
    | undefined s' hout => exact .inr (.inr ⟨hj, hout, rfl⟩)

end Sys2Proof.Machine

namespace Sys2Proof

open Machine

/-- Settles O50: the next state is that of `undefine`, after the construction and with the answer for
NEXT. -/
theorem outOfContractCommandsAreBounded : Obligations.OutOfContractCommandsAreBounded := by
  intro i j s o ho hcases
  obtain ⟨hj, hout⟩ := outOfContract_iff (c := Config.hw).2 hcases
  rcases completes_of_outOfContract ho hj hout with ⟨hne, h⟩ | ⟨heq, h⟩
  · have hosc := osc?_undefine ho
    exact ⟨_, undefinedOsc s o, h.exec_eq, (hosc j).trans (if_pos rfl), rfl, rfl, h.oscs_length,
      fun j' hj' => (hosc j').trans (if_neg hj'), fun _ => ⟨⟨rfl, rfl⟩, rfl⟩,
      fun heq => absurd heq hne, rfl, rfl⟩
  · have hosc := osc?_nextUndefined (c := Config.hw) ho
    obtain ⟨-, hrest⟩ := h.tables
    exact ⟨_, _, h.exec_eq, (hosc j).trans (if_pos rfl), rfl, rfl, h.oscs_length,
      fun j' hj' => (hosc j').trans (if_neg hj'), fun hne => absurd heq hne,
      fun _ => ⟨getTable_demanded Config.hw o.kind s, freeAt s 4, by simp [nextUndefined]⟩, hrest⟩

/-- Settles O52: of the commands that write the mark only OSCRST clears it. -/
theorem onlyOscrstEndsAnUndefinedCondition : Obligations.OnlyOscrstEndsAnUndefinedCondition := by
  intro i j s t o ho hundef h hne
  rw [exec_eq_execWith] at h
  have hi := Completes.of_execWith h
  obtain ⟨u, hu⟩ := hi.exists_osc? ho
  refine ⟨u, hu, ?_⟩
  rcases hi.undef_cases ho hu with hsame | ⟨hrst, -⟩ | ⟨-, -, hset⟩
  · exact hsame.trans hundef
  · exact absurd hrst hne
  · exact hset

/-- Settles O53: only an out-of-contract command sets the mark, and on a defined oscillator it fails a
precondition other than P5. -/
theorem onlyOutOfContractMakesUndefined : Obligations.OnlyOutOfContractMakesUndefined := by
  intro i j s t o u ho hdef h hu hundef
  rw [exec_eq_execWith] at h
  rcases (Completes.of_execWith h).undef_cases ho hu with hsame | ⟨-, hclear⟩ | ⟨hj, hout, -⟩
  · simp [hsame, hdef] at hundef
  · simp [hclear] at hundef
  · rcases outOfContract_iff.1 ⟨hj, hout⟩ with ⟨f, hi, hf⟩ | ⟨f, hi, hf⟩ | ⟨hi, hc⟩
    · exact .inl ⟨f, .inl hi, hf.resolve_left (by simp [hdef])⟩
    · exact .inl ⟨f, .inr hi, hf.resolve_left (by simp [hdef])⟩
    · exact .inr ⟨hi, hc.resolve_left (by simp [hdef])⟩

end Sys2Proof
end

section
/-! PROOFS. Reset and the first command (rules R161, R162). -/

namespace Sys2Proof.Machine

theorem step_of_reset {s : State} {rest : List HostEvent} (he : s.events = .rst :: rest) :
    step s = .next (hardReset Config.hw (takeEvent rest s)) := by
  simp [step, he]

/-- The oscillator as created holds a phase and an increment in range (rule R162). -/
theorem nextInContract_created_hw : nextInContract Config.hw (Osc.created Config.hw) = true := by
  rw [created_hw]
  decide +kernel

/-- Phase `+0.0` is index 0 with fraction 0, so the first answer is entry 0 of the sine table. -/
theorem sample_reset_created :
    sample Config.hw State.reset (Osc.created Config.hw) = 0x00000000#32 := by
  have hsplit : splitPhase Config.hw.log2N 0x00000000#32 = (0, 0x00000000#32) := by decide +kernel
  have hindices : readIndices Config.hw 0 = (0, 1) := by decide
  obtain ⟨hinv, -⟩ := resetMeetsTheInvariant Config.hw hardwareParametersAreLegal
  have hword {i : Nat} (hi : i < Config.hw.size) :
      tableWord Config.hw State.reset .sine i = sinWord (2 ^ 15 - 1) i :=
    tableWord_of_inv hinv .sine hi
  have hfirst : sinWord (2 ^ 15 - 1) 0 = 0x00000000#32 := (sinWord_zero _).trans (by decide)
  have hsecond : isFinite (sinWord (2 ^ 15 - 1) 1) = true := by decide +kernel
  have hdiff : isFinite (fsub (sinWord (2 ^ 15 - 1) 1) 0x00000000#32) = true := by decide +kernel
  rw [sample, created_hw, hsplit, hindices, hword (by decide), hword (by decide), hfirst]
  obtain ⟨-, hlerp⟩ := zeroFractionReturnsTheTableWord Config.hw.lerpMode 0x00000000#32
    0x00000000#32 _ (by decide) (by decide) (by decide) hsecond hdiff
  exact hlerp (by decide)

/-- From `+0.0` the phase advances to the increment. -/
theorem advance_created_hw :
    advance Config.hw.log2N 0x00000000#32 0x43A377EE#32 = 0x43A377EE#32 := by
  decide +kernel

end Sys2Proof.Machine

namespace Sys2Proof

open Machine

/-- Settles O10: the state after the reset event holds the values listed for the reset state, but for
the draw and the host's events. -/
theorem hardwareResetRestoresEverything : Obligations.HardwareResetRestoresEverything := by
  intro s rest he
  obtain ⟨hoscs, hbuilt, htab, hresponses⟩ := resetHoldsTheListedValues
  exact ⟨_, step_of_reset he, hoscs, hbuilt, htab, rfl, hresponses, rfl⟩

/-- Settles O11: the word is that of a NEXT in contract, whose answer is entry 0 of the sine table. -/
theorem firstNextAfterResetAnswersZero : Obligations.FirstNextAfterResetAnswersZero := by
  obtain ⟨-, -, hrun⟩ := stepRunsTheDecodedCommand
  have hosc : osc? State.reset 0 = some (Osc.created Config.hw) := rfl
  have hnext := Completes.next hosc nextInContract_created_hw
  refine ⟨_, (hrun State.reset (.next 0) rfl).trans hnext.exec_eq, ?_, ?_, ?_⟩
  · rw [sample_reset_created, respond_responses, setOsc_responses, getTable_responses]
    rfl
  · obtain ⟨hbuilt, -⟩ := (getTable_demanded Config.hw .sine State.reset).2 rfl
    rw [respond_built, setOsc_built, created_hw, hbuilt]
    decide
  · rw [created_hw, respond_oscs, setOsc_oscs, getTable_oscs, advance_created_hw]
    rfl

end Sys2Proof
end
